-- ==== Sys2Proof/Config.lean ====
section
/-! DEFINITION. Config: the implementation parameters of `00_scope.md` rule R6 at the values this hardware takes.
`Prog`, `PROG_LEN` and `MEM_SIZE` are arguments of a run and stand in State (log entry 3); the spec leaves no
value open, so there is no free value here. The opcode values and instruction lengths are in the one table of
Sys2Proof/Decode.lean. -/

namespace Sys2Proof.Config

/-- `B_W`: the width of field B in both formats (R6). -/
def bW : Nat := 10

/-- `C_W32`: the width of field C in the 32-bit format (R6). -/
def cW32 : Nat := 16

/-- `C_W40`: the width of field C in the 40-bit format (R6). -/
def cW40 : Nat := 24

/-- The value of `MEM_SIZE` this hardware takes, in words (R6, D2). -/
def memSize : Nat := 1024

/-- The bound on `PROG_LEN`: `2^PC_W - 1` with `PC_W = 32` (R6, D8). -/
def maxProgLen : Nat := 4294967295

/-- The longest instruction, in bytes (R47). -/
def maxInstrBytes : Nat := 5

end Sys2Proof.Config
end

