-- ==== Sys2Proof/Word.lean ====
section
/-! DEFINITION. The two units of storage: the byte of the program space (`20_memory.md` rule R33) and the word of
the data space (rule R32, `WORD_W = 32`). Everything in this machine is unsigned (`00_scope.md` rule R7). -/

namespace Sys2Proof

/-- One byte of the program space (R33). -/
abbrev Byte := BitVec 8

/-- One word of the data space, `WORD_W = 32` bits (R6, R18); also the width of an index (R32) and of `FAULT_VAL`. -/
abbrev Word := BitVec 32

end Sys2Proof
end

