-- ==== Sys2Proof/Syntax.lean ====
section
/-! DEFINITION. The four instructions of the ISA (`30_encoding.md` rules R47 to R53), and an instruction as the
assembler's user writes it, before its operands are known to fit their fields (rules R63, R64). -/

namespace Sys2Proof

/-- The four instruction kinds, one per row of the opcode table (R2, R53). -/
inductive Opcode where
  | loadConst
  | loadMem
  | storeMem
  | bitreverse
  deriving DecidableEq, Repr

/-- The two instruction formats (R47): `F40` has 5 bytes and a 24-bit C, `F32` has 4 bytes and a 16-bit C. -/
inductive Format where
  | f40
  | f32
  deriving DecidableEq, Repr

/-- An instruction with its extracted fields. Field B is 10 bits in every instruction; field C is 24 bits in
`LOAD_CONST` and 16 bits in the others (R47 to R49). Every value of a field is valid (R56). -/
inductive Instr where
  /-- `LOAD_CONST B,C` (R81): B names the destination cell, C is the constant. -/
  | loadConst (b : BitVec 10) (c : BitVec 24)
  /-- `LOAD_MEM B,C` (R82): B names the pointer cell, C the destination cell. -/
  | loadMem (b : BitVec 10) (c : BitVec 16)
  /-- `STORE_MEM B,C` (R83): B names the pointer cell, C the source cell. -/
  | storeMem (b : BitVec 10) (c : BitVec 16)
  /-- `BITREVERSE B,C` (R88): B names the source pointer cell, C the destination pointer cell. -/
  | bitreverse (b : BitVec 10) (c : BitVec 16)
  deriving DecidableEq, Repr

/-- The kind of an instruction. -/
def Instr.opcode : Instr → Opcode
  | .loadConst _ _ => .loadConst
  | .loadMem _ _ => .loadMem
  | .storeMem _ _ => .storeMem
  | .bitreverse _ _ => .bitreverse

/-- Field B of an instruction (R47). -/
def Instr.fieldB : Instr → BitVec 10
  | .loadConst b _ => b
  | .loadMem b _ => b
  | .storeMem b _ => b
  | .bitreverse b _ => b

/-- The number in field C of an instruction (R47). -/
def Instr.fieldC : Instr → Nat
  | .loadConst _ c => c.toNat
  | .loadMem _ c => c.toNat
  | .storeMem _ c => c.toNat
  | .bitreverse _ c => c.toNat

/-- An operand as the assembler reads it: a decimal numeral, or one with a minus sign before it, which no field
can hold (R61, R64). -/
inductive Operand where
  | numeral (n : Nat)
  | negative (n : Nat)
  deriving DecidableEq, Repr

/-- An instruction line after tokenizing and before the range check: the mnemonic and the operands B and C (R63). -/
structure Source where
  op : Opcode
  b : Operand
  c : Operand
  deriving DecidableEq, Repr

/-- The source form of an instruction: its kind and its two field values. -/
def Instr.toSource (i : Instr) : Source :=
  ⟨i.opcode, .numeral i.fieldB.toNat, .numeral i.fieldC⟩

end Sys2Proof
end

