-- ==== Sys2Proof/WellFormed.lean ====
section
/-! DEFINITION. Well-formedness: a source instruction is well formed when each operand is unsigned and fits its
field (`30_encoding.md` rules R51 and R64). An `Instr` carries its fields at their widths, so it is always well
formed (rule R56; proved in Sys2Proof/Laws/PerInstr.lean). -/

namespace Sys2Proof

/-- The width of field C, by kind (R48, R49). -/
def Opcode.cWidth : Opcode → Nat
  | .loadConst => Config.cW40
  | .loadMem => Config.cW32
  | .storeMem => Config.cW32
  | .bitreverse => Config.cW32

/-- An operand fits a field of `width` bits: it has no minus sign and is below `2^width` (R64). -/
def Operand.fits (width : Nat) : Operand → Bool
  | .numeral n => decide (n < 2 ^ width)
  | .negative _ => false

/-- The range rule of R64: B fits 10 bits, C fits 24 bits for `LOAD_CONST` and 16 bits for the others. -/
def Source.wellFormed (src : Source) : Bool :=
  src.b.fits Config.bW && src.c.fits src.op.cWidth

/-- An instruction is well formed when its source form is. -/
def Instr.wellFormed (i : Instr) : Bool := i.toSource.wellFormed

end Sys2Proof
end

