-- ==== Sys2Proof/Decode.lean ====
section
/-! DEFINITION. The decoder and the encoder (`30_encoding.md` rules R47 to R59, `40_fetch_decode_dispatch.md`
rules R70 to R76). Both read the opcode values, formats and lengths from one table, `Opcode.row`
(`93_implementation_defined.md` U9 asks for one place). -/

namespace Sys2Proof

/-- A row of the opcode map (R53): the 6-bit value of field A and the format. -/
structure OpcodeRow where
  value : BitVec 6
  format : Format
  deriving DecidableEq, Repr

/-- The opcode map of R53. -/
def Opcode.row : Opcode → OpcodeRow
  | .loadConst => ⟨58, .f40⟩
  | .loadMem => ⟨63, .f32⟩
  | .storeMem => ⟨31, .f32⟩
  | .bitreverse => ⟨8, .f32⟩

/-- Every instruction kind, in the opcode table's order. -/
def Opcode.all : List Opcode := [.loadConst, .loadMem, .storeMem, .bitreverse]

/-- The length in bytes of an instruction of a format (R47). -/
def Format.bytes : Format → Nat
  | .f40 => 5
  | .f32 => 4

/-- `ILEN`: the length in bytes, a function of the opcode alone (R57, R72). -/
def Opcode.ilen (op : Opcode) : Nat := op.row.format.bytes

/-- The opcode look-ahead (R70): `A = b0[7:2]`, the first byte's top six bits. -/
def lookahead (b0 : Byte) : BitVec 6 := b0.extractLsb' 2 6

/-- The instruction kind with opcode value `a`; none for the 60 illegal values (R55). -/
def opcodeOf? (a : BitVec 6) : Option Opcode :=
  Opcode.all.find? fun op => op.row.value == a

/-- Why bytes do not decode. -/
inductive DecodeError where
  /-- There is no first byte to read; the step never asks for this (R69: it needs `pc < PROG_LEN`). Log entry 12. -/
  | noBytes
  /-- The look-ahead opcode `a` is none of the four (R71). -/
  | unknownOpcode (a : BitVec 6)
  /-- The opcode `a` is known and fewer bytes are left than its length (R73). -/
  | truncated (a : BitVec 6)
  deriving DecidableEq, Repr

/-- The 40-bit big-endian instruction word of five bytes, the first most significant (R35). -/
def word40 (b0 b1 b2 b3 b4 : Byte) : BitVec 40 := b0 ++ b1 ++ b2 ++ b3 ++ b4

/-- The 32-bit big-endian instruction word of four bytes, the first most significant (R35). -/
def word32 (b0 b1 b2 b3 : Byte) : BitVec 32 := b0 ++ b1 ++ b2 ++ b3

/-- Field extraction in format `F40`: `B = W[33:24]`, `C = W[23:0]` (R48, R75). -/
def decodeF40 (mk : BitVec 10 → BitVec 24 → Instr) (b0 : Byte) :
    List Byte → Except DecodeError (Instr × List Byte)
  | b1 :: b2 :: b3 :: b4 :: rest =>
    let w := word40 b0 b1 b2 b3 b4
    .ok (mk (w.extractLsb' 24 10) (w.extractLsb' 0 24), rest)
  | _ => .error (.truncated (lookahead b0))

/-- Field extraction in format `F32`: `B = W[25:16]`, `C = W[15:0]` (R49, R75). -/
def decodeF32 (mk : BitVec 10 → BitVec 16 → Instr) (b0 : Byte) :
    List Byte → Except DecodeError (Instr × List Byte)
  | b1 :: b2 :: b3 :: rest =>
    let w := word32 b0 b1 b2 b3
    .ok (mk (w.extractLsb' 16 10) (w.extractLsb' 0 16), rest)
  | _ => .error (.truncated (lookahead b0))

/-- The decoder: classify by the first byte alone (R54, R71), then require the whole instruction (R73), then
extract the fields of its format (R75). It answers the instruction and the bytes after it. -/
def decode : List Byte → Except DecodeError (Instr × List Byte)
  | [] => .error .noBytes
  | b0 :: rest =>
    match opcodeOf? (lookahead b0) with
    | none => .error (.unknownOpcode (lookahead b0))
    | some .loadConst => decodeF40 .loadConst b0 rest
    | some .loadMem => decodeF32 .loadMem b0 rest
    | some .storeMem => decodeF32 .storeMem b0 rest
    | some .bitreverse => decodeF32 .bitreverse b0 rest

/-- The five bytes of a 40-bit instruction word at increasing offsets (R51). -/
def bytes40 (w : BitVec 40) : List Byte :=
  [w.extractLsb' 32 8, w.extractLsb' 24 8, w.extractLsb' 16 8, w.extractLsb' 8 8, w.extractLsb' 0 8]

/-- The four bytes of a 32-bit instruction word at increasing offsets (R51). -/
def bytes32 (w : BitVec 32) : List Byte :=
  [w.extractLsb' 24 8, w.extractLsb' 16 8, w.extractLsb' 8 8, w.extractLsb' 0 8]

/-- An instruction of format `F40` as bytes: A, B and C fill the word with no gap (R48, R51). -/
def encodeF40 (op : Opcode) (b : BitVec 10) (c : BitVec 24) : List Byte :=
  bytes40 (op.row.value ++ b ++ c)

/-- An instruction of format `F32` as bytes (R49, R51). -/
def encodeF32 (op : Opcode) (b : BitVec 10) (c : BitVec 16) : List Byte :=
  bytes32 (op.row.value ++ b ++ c)

/-- The encoding function of R51. -/
def encode : Instr → List Byte
  | .loadConst b c => encodeF40 .loadConst b c
  | .loadMem b c => encodeF32 .loadMem b c
  | .storeMem b c => encodeF32 .storeMem b c
  | .bitreverse b c => encodeF32 .bitreverse b c

/-- The range check at the encode boundary (R64): the instruction whose fields hold the operands, or none where an
operand does not fit (the assembler's `FieldOverflow`); never a truncated operand. -/
def Source.toInstr? (src : Source) : Option Instr :=
  match src.b, src.c with
  | .numeral b, .numeral c =>
    if src.wellFormed then
      match src.op with
      | .loadConst => some (.loadConst (BitVec.ofNat 10 b) (BitVec.ofNat 24 c))
      | .loadMem => some (.loadMem (BitVec.ofNat 10 b) (BitVec.ofNat 16 c))
      | .storeMem => some (.storeMem (BitVec.ofNat 10 b) (BitVec.ofNat 16 c))
      | .bitreverse => some (.bitreverse (BitVec.ofNat 10 b) (BitVec.ofNat 16 c))
    else none
  | _, _ => none

/-- The `n` bytes of the number `w`, most significant first (R35). -/
def bigEndianBytes (n w : Nat) : List Byte :=
  (List.range n).map fun k => BitVec.ofNat 8 (w >>> (8 * (n - 1 - k)))

/-- The bytes of an opcode-table word: the table numbers a row's bits within the one big-endian instruction word
(log entry 9); bytes of zeros follow, up to the longest instruction. -/
def tableBytes (nbits w : Nat) : List Byte :=
  bigEndianBytes (nbits / 8) w ++ List.replicate (Config.maxInstrBytes - nbits / 8) 0

/-- The instruction the decoder reads from an opcode-table word, and none where it refuses. -/
def decodeTableWord (nbits w : Nat) : Option Instr :=
  match decode (tableBytes nbits w) with
  | .ok (i, _) => some i
  | .error _ => none

/-- The bytes of an opcode-table word that belong to its instruction: as many as the instruction has where the
word decodes, all of them where it does not. -/
def tableInstrBytes (nbits w : Nat) : List Byte :=
  match decodeTableWord nbits w with
  | some i => (tableBytes nbits w).take i.opcode.ilen
  | none => tableBytes nbits w

end Sys2Proof
end

