-- ==== Sys2Proof/Machine/State.lean ====
section
/-! DEFINITION. The architectural state (`10_state.md` rules R15 to R25), the reasons a step can stop, and the
state after reset (rule R29). -/

namespace Sys2Proof.Machine

/-- The data memory: (index, word) pairs with indices strictly rising and no word 0; an unlisted cell reads 0
(R18, R29). The word is the smallest unit of the data space, which has no byte order (R36). Log entry 6. -/
abbrev Memory := List (Nat × Word)

/-- `FAULT_CAUSE` (R21): which fault ended the run. Its 2-bit codes are `FaultCause.code`. Log entry 7. -/
inductive FaultCause where
  | none
  | unknownOpcode
  | truncatedInstruction
  | outOfBoundsAccess
  deriving DecidableEq, Repr

/-- `STATUS` (R22), a function of the state. -/
inductive Status where
  | running
  | halted
  | faulted
  deriving DecidableEq, Repr

/-- The state of the core: `pc`, `Mem` and the fault record (R12), with the inputs of the run, which nothing changes
(R24; log entry 3). `PROG_LEN` is the length of `prog`. -/
structure State where
  /-- `Prog`, the Binary Program: exactly `PROG_LEN` bytes, read-only (R24, R33). -/
  prog : List Byte
  /-- `MEM_SIZE`, the number of words of data memory (R6, R18). -/
  memSize : Nat
  /-- The program counter: the byte offset of the next instruction to decode (R16). Log entry 1. -/
  pc : BitVec 32
  /-- `Mem` (R18). -/
  mem : Memory
  /-- `FAULT_CAUSE` (R21). -/
  faultCause : FaultCause
  /-- `FAULT_PC`: the `pc` of the faulting instruction (R21). -/
  faultPc : BitVec 32
  /-- `FAULT_VAL`: the fault's payload (R21). -/
  faultVal : Word
  deriving DecidableEq, Repr

/-- Why there is no step: the two terminal statuses (R22, R69). The core's own three faults are no outcome of this
kind: raising one is a next state, in which the fault record is written (R99). Log entry 5. -/
inductive Fault where
  /-- HALTED: no fault and `pc >= PROG_LEN`. Raised by `step` only. It is the normal end of a run (R116). Safe. -/
  | halted
  /-- FAULTED: `FAULT_CAUSE` is not 0. Raised by `step` only (R69, R102). Safe. -/
  | faulted
  deriving DecidableEq, Repr

/-- What the model gives no step to. -/
inductive Refusal where
  /-- An instruction without a meaning in this model; raised by a refused arm of `exec` only (there is none). Safe. -/
  | notModelled (mnemonic : String)
  /-- `PROG_LEN` exceeds `2^32 - 1`: "programs of 4 GiB or more are refused" (D8). Raised by `step` only. Safe.
  Log entry 1. -/
  | programTooLong
  deriving DecidableEq, Repr

/-- The machine right after reset (R29, R111): `pc`, every cell and the fault record are 0. Reset touches no input
of the run: `MEM_SIZE` is this hardware's 1024 and no program is loaded (log entries 3, 4). -/
def State.reset : State where
  prog := []
  memSize := Config.memSize
  pc := 0
  mem := []
  faultCause := .none
  faultPc := 0
  faultVal := 0

end Sys2Proof.Machine
end

