-- ==== Sys2Proof/Machine/Ops.lean ====
section
/-! DEFINITION. The named operations over memory and state: `MemRead` and `MemWrite` (`00_scope.md` rule R8), the
`pc` advance (`40_fetch_decode_dispatch.md` rule R78), raising a fault (`60_exceptions.md` rule R99) and reset
(`70_reset_and_hazards.md` rule R111). There is no return from a fault but reset (rule R101). -/

namespace Sys2Proof.Machine

/-- `MemRead(a, 1)`: the word of cell `a`; a cell that nothing has written reads 0 (R8, R18). -/
def Memory.read : Memory → Nat → Word
  | [], _ => 0
  | cell :: rest, a => if cell.1 = a then cell.2 else Memory.read rest a

/-- The memory with cell `a` unlisted. -/
def Memory.remove (m : Memory) (a : Nat) : Memory := m.filter fun cell => cell.1 != a

/-- The memory with cell `a`, which it does not list, listed before the first higher index. -/
def Memory.place : Memory → Nat → Word → Memory
  | [], a, v => [(a, v)]
  | cell :: rest, a, v => if a < cell.1 then (a, v) :: cell :: rest else cell :: Memory.place rest a v

/-- `MemWrite(a, 1, v)`: sets cell `a` to `v` (R8). Writing 0 unlists the cell, so that equal memories are equal data. -/
def Memory.write (m : Memory) (a : Nat) (v : Word) : Memory :=
  if v = 0 then m.remove a else (m.remove a).place a v

/-- The canonical form of a memory: indices strictly rising, and no cell listed with the word 0. -/
abbrev Memory.wf (m : Memory) : Prop :=
  m.Pairwise (fun c d => c.1 < d.1) ∧ ∀ c ∈ m, c.2 ≠ 0

/-- The 2-bit code of `FAULT_CAUSE` (R21). -/
def FaultCause.code : FaultCause → BitVec 2
  | .none => 0
  | .unknownOpcode => 1
  | .truncatedInstruction => 2
  | .outOfBoundsAccess => 3

/-- `MemWrite` on the state. -/
def State.writeCell (s : State) (a : Nat) (v : Word) : State := { s with mem := s.mem.write a v }

/-- `pc <- pc + n` (R78). The sum is taken in 32 bits; in a step it never wraps (R17; log entry 2). -/
def State.advance (s : State) (n : Nat) : State := { s with pc := s.pc + BitVec.ofNat 32 n }

/-- Raising a fault (R9, R99): the fault record is written, and nothing else changes. -/
def State.raise (s : State) (cause : FaultCause) (info : Word) : State :=
  { s with faultCause := cause, faultPc := s.pc, faultVal := info }

/-- The fault a failed decode raises, with the opcode value as its payload (R93, R94). -/
def raiseDecodeError (e : DecodeError) (s : State) : Host.Outcome State Fault Refusal :=
  match e with
  | .noBytes => .fault .halted
  | .unknownOpcode a => .next (s.raise .unknownOpcode (a.setWidth 32))
  | .truncated a => .next (s.raise .truncatedInstruction (a.setWidth 32))

/-- Reset, in any status (R111, R113): `pc`, every cell and the fault record become 0; the inputs of the run stay. -/
def State.applyReset (s : State) : State :=
  { s with pc := 0, mem := [], faultCause := .none, faultPc := 0, faultVal := 0 }

/-- The state in which a run begins (R112, R114): the program is loaded, `MEM_SIZE` is fixed, reset was applied. -/
def State.boot (prog : List Byte) (memSize : Nat) : State :=
  { State.reset with prog := prog, memSize := memSize }

end Sys2Proof.Machine
end

