-- ==== Sys2Proof/Machine/Operands.lean ====
section
/-! DEFINITION. The bounds check (`60_exceptions.md` rule R95), the operand forms (`41_data_movement.md` rule R84)
and the one shape every instruction's effect has: checks and reads, then one write, then the `pc` advance (rules R86,
R78). An `Except Word` stands for a computation that may meet an index outside memory; the error is that index. -/

namespace Sys2Proof.Machine

/-- `chk(i)`: the index itself where it is below `MEM_SIZE`, unsigned; else the offending index (R8, R95). -/
def chk (s : State) (i : Word) : Except Word Word :=
  if s.memSize ≤ i.toNat then .error i else .ok i

/-- `MemRead` of a checked index. -/
def State.readCell (s : State) (i : Word) : Word := s.mem.read i.toNat

/-- The immediate form: the field zero-extended to 32 bits (R52, R84). -/
def immediate {w : Nat} (field : BitVec w) : Word := field.setWidth 32

/-- The direct form: the field is the operand cell's index (R84). -/
def direct {w : Nat} (s : State) (field : BitVec w) : Except Word Word := chk s (field.setWidth 32)

/-- The cell-indirect form: the field names a cell whose content, all 32 bits of it, is the operand cell's index;
the pointer is read after its cell's index passed its check (R84, R95). -/
def indirect {w : Nat} (s : State) (field : BitVec w) : Except Word Word :=
  match direct s field with
  | .error i => .error i
  | .ok cell => chk s (s.readCell cell)

/-- The end of every instruction of `n` bytes. An offending index raises `OutOfBoundsAccess` and nothing is written
(R95, R99); else the one word is written to the one cell and `pc` advances (R77, R78, R86). -/
def finish (n : Nat) (s : State) (effect : Except Word (Word × Word)) :
    Host.Outcome State Fault Refusal :=
  match effect with
  | .error i => .next (s.raise .outOfBoundsAccess i)
  | .ok (dst, v) => .next ((s.writeCell dst.toNat v).advance n)

end Sys2Proof.Machine
end

