-- ==== Sys2Proof/Machine/Bitreverse.lean ====
section
/-! DEFINITION. The `bitrev32` function and `BITREVERSE` (`42_bitreverse.md` rules R87 and R88). -/

namespace Sys2Proof.Machine

/-- `bitrev32(v)`: the word `r` with `r[i] = v[31 - i]` for every `i` from 0 to 31 (R87). -/
def bitrev32 (v : Word) : Word := BitVec.ofFnLE fun i : Fin 32 => v.getLsbD (31 - i.val)

/-- `BITREVERSE B,C` (R88): `Mem[Mem[C]] <- bitrev32(Mem[Mem[B]])`. -/
def execBitreverse (b : BitVec 10) (c : BitVec 16) (s : State) : Host.Outcome State Fault Refusal :=
  finish Opcode.bitreverse.ilen s do
    let p ← indirect s b
    let q ← indirect s c
    return (q, bitrev32 (s.readCell p))

end Sys2Proof.Machine
end

