-- ==== Sys2Proof/Machine/DataMovement.lean ====
section
/-! DEFINITION. `LOAD_CONST`, `LOAD_MEM` and `STORE_MEM` (`41_data_movement.md` rules R81 to R83), each written in
the order of its rule's pseudocode. -/

namespace Sys2Proof.Machine

/-- `LOAD_CONST B,C` (R81): `Mem[B] <- zext_32(C)`. -/
def execLoadConst (b : BitVec 10) (c : BitVec 24) (s : State) : Host.Outcome State Fault Refusal :=
  finish Opcode.loadConst.ilen s do
    let dst ← direct s b
    return (dst, immediate c)

/-- `LOAD_MEM B,C` (R82): `Mem[C] <- Mem[Mem[B]]`. -/
def execLoadMem (b : BitVec 10) (c : BitVec 16) (s : State) : Host.Outcome State Fault Refusal :=
  finish Opcode.loadMem.ilen s do
    let p ← indirect s b
    let dst ← direct s c
    return (dst, s.readCell p)

/-- `STORE_MEM B,C` (R83): `Mem[Mem[B]] <- Mem[C]`. -/
def execStoreMem (b : BitVec 10) (c : BitVec 16) (s : State) : Host.Outcome State Fault Refusal :=
  finish Opcode.storeMem.ilen s do
    let p ← indirect s b
    let src ← direct s c
    return (p, s.readCell src)

end Sys2Proof.Machine
end

