-- ==== Sys2Proof/Machine/Dispatch.lean ====
section
/-! DEFINITION. Dispatch on the decoded instruction (`40_fetch_decode_dispatch.md` rule R77): one arm per instruction. -/

namespace Sys2Proof.Machine

def exec (i : Instr) (s : State) : Host.Outcome State Fault Refusal :=
  match i with
  | .loadConst b c => Sys2Proof.Machine.execLoadConst b c s
  | .loadMem b c => Sys2Proof.Machine.execLoadMem b c s
  | .storeMem b c => Sys2Proof.Machine.execStoreMem b c s
  | .bitreverse b c => Sys2Proof.Machine.execBitreverse b c s

end Sys2Proof.Machine
end

