-- ==== Sys2Proof/Machine/Fetch.lean ====
section
/-! DEFINITION. Fetching from the program store (`40_fetch_decode_dispatch.md` rules R70 to R75, `10_state.md` rule
R26), and the host's placing of an instruction where the next fetch reads (log entry 10). -/

namespace Sys2Proof.Machine

/-- The instruction at `pc`, or why there is none. The decoder sees the bytes from `pc` to the end of the program and
no other, so no byte at or beyond `PROG_LEN` is ever read (R26, R73). -/
def fetch (s : State) : Except DecodeError Instr :=
  (decode (s.prog.drop s.pc.toNat)).map Prod.fst

/-- The program with `bytes` at offset `o`; bytes of zeros fill a gap below `o`. -/
def overwriteAt (prog : List Byte) (o : Nat) (bytes : List Byte) : List Byte :=
  prog.take o ++ List.replicate (o - prog.length) 0 ++ bytes ++ prog.drop (o + bytes.length)

/-- The host's load of one instruction's bytes at `pc`. A step fetches only where the fault record is clear (R69), so
it is cleared. Log entry 10. -/
def State.placeAtPc (s : State) (bytes : List Byte) : State :=
  { s with
    prog := overwriteAt s.prog s.pc.toNat bytes
    faultCause := .none, faultPc := 0, faultVal := 0 }

end Sys2Proof.Machine
end

