-- ==== Sys2Proof/Machine/Flags.lean ====
section
/-! DEFINITION. There are no flags, condition codes or predicates (`10_state.md` rule R19): no instruction sets or
reads one. The only condition the machine computes is `STATUS`, a function of the state (rule R22). -/

namespace Sys2Proof.Machine

/-- `STATUS` (R22). -/
def State.status (s : State) : Status :=
  if s.faultCause ≠ .none then .faulted
  else if s.prog.length ≤ s.pc.toNat then .halted
  else .running

/-- The 2-bit code of `STATUS` on the status interface (R22). -/
def Status.code : Status → BitVec 2
  | .running => 0
  | .halted => 1
  | .faulted => 2

end Sys2Proof.Machine
end

