-- ==== Sys2Proof/Machine/Step.lean ====
section
/-! DEFINITION. The step of the core (`40_fetch_decode_dispatch.md` rule R79). -/

namespace Sys2Proof.Machine

/-- `Step()` (R79). A step exists exactly when `STATUS = RUNNING` (R69); it raises `UnknownOpcode` or
`TruncatedInstruction` where the bytes at `pc` do not decode (R71, R73), and else runs the decoded instruction, whose
meaning raises `OutOfBoundsAccess` or writes one cell and advances `pc` (R77, R78). A program longer than
`2^32 - 1` bytes is refused (D8; log entry 1). -/
def step (s : State) : Host.Outcome State Fault Refusal :=
  if Config.maxProgLen < s.prog.length then .refused .programTooLong
  else
    match s.status with
    | .faulted => .fault .faulted
    | .halted => .fault .halted
    | .running =>
      match fetch s with
      | .error e => raiseDecodeError e s
      | .ok i => exec i s

/-- The state with an opcode-table word's instruction stored at `pc`, where the next step fetches. Log entry 10. -/
def State.withFetchWord (s : State) (nbits w : Nat) : State := s.placeAtPc (tableInstrBytes nbits w)

end Sys2Proof.Machine
end

