-- ==== Sys2Proof/Machine/Assembler.lean ====
section
/-! DEFINITION. The assembler's input language, errors and output (`30_encoding.md` rules R60 to R68). It is software
outside the hardware block (`00_scope.md` rule R5) and the only textual form of the ISA; the machine's step uses none
of it. Text is a list of characters; a line holds no line break. Log entries 14 to 16. -/

namespace Sys2Proof.Asm

/-- The assembler's three errors (R66). -/
inductive ErrorKind where
  | unknownMnemonic
  | wrongOperandArity
  | fieldOverflow
  deriving DecidableEq, Repr

/-- A fatal assembly error with the offending line's number, counted from 1 (R66; log entry 15). -/
structure Error where
  line : Nat
  kind : ErrorKind
  deriving DecidableEq, Repr

/-- A record of the assembler's log: the fields A, B and C (R68). -/
structure LogRecord where
  a : BitVec 6
  b : BitVec 10
  c : Nat
  deriving DecidableEq, Repr

/-- What the assembler produces where there is no error: the Binary Program (R65) and the log (R68). -/
structure Output where
  prog : List Byte
  log : List LogRecord
  deriving DecidableEq, Repr

/-- The mnemonics, in upper case exactly (R62). -/
def mnemonic : Opcode → List Char
  | .loadConst => ['L', 'O', 'A', 'D', '_', 'C', 'O', 'N', 'S', 'T']
  | .loadMem => ['L', 'O', 'A', 'D', '_', 'M', 'E', 'M']
  | .storeMem => ['S', 'T', 'O', 'R', 'E', '_', 'M', 'E', 'M']
  | .bitreverse => ['B', 'I', 'T', 'R', 'E', 'V', 'E', 'R', 'S', 'E']

/-- The kind a mnemonic names; none for any other word (R62). -/
def mnemonicOf? (word : List Char) : Option Opcode :=
  Opcode.all.find? fun op => mnemonic op == word

/-- Text without the white space before it. -/
def trimLeft (cs : List Char) : List Char := cs.dropWhile Char.isWhitespace

/-- Text without the white space around it, which is ignored (R61). -/
def trim (cs : List Char) : List Char := (trimLeft (trimLeft cs).reverse).reverse

/-- Blank lines and lines whose first non-blank character is `;` are skipped (R60). -/
def isSkipped (line : List Char) : Bool :=
  match trimLeft line with
  | [] => true
  | c :: _ => c == ';'

/-- The pieces of a text between its separators. -/
def splitOn (sep : Char) : List Char → List (List Char)
  | [] => [[]]
  | c :: cs =>
    if c = sep then [] :: splitOn sep cs
    else
      match splitOn sep cs with
      | [] => [[c]]
      | piece :: pieces => (c :: piece) :: pieces

/-- The value of a decimal numeral (R61). -/
def numeralValue (cs : List Char) : Nat := cs.foldl (fun n c => n * 10 + (c.toNat - '0'.toNat)) 0

/-- A decimal numeral: one or more of the ten digits, leading zeros accepted (R61, D15). -/
def numeral? (cs : List Char) : Option Nat :=
  if cs ≠ [] ∧ cs.all Char.isDigit = true then some (numeralValue cs) else none

/-- An operand: a numeral, or a minus sign and a numeral; no plus sign (R61, D15; log entry 16). -/
def operand? (cs : List Char) : Option Operand :=
  match cs with
  | '-' :: digits => (numeral? digits).map .negative
  | digits => (numeral? digits).map .numeral

/-- One instruction line: the mnemonic (R62), then exactly two operands that parse (R61, R63), then the range check
(R64). The first of these that fails is the line's error (log entry 15). -/
def parseInstr (line : List Char) : Except ErrorKind Instr :=
  let text := trim line
  match mnemonicOf? (text.takeWhile fun c => !c.isWhitespace) with
  | none => .error .unknownMnemonic
  | some op =>
    match splitOn ',' (text.dropWhile fun c => !c.isWhitespace) with
    | [x, y] =>
      match operand? (trim x), operand? (trim y) with
      | some b, some c =>
        match (Source.mk op b c).toInstr? with
        | some i => .ok i
        | none => .error .fieldOverflow
      | _, _ => .error .wrongOperandArity
    | _ => .error .wrongOperandArity

/-- The instructions of the lines from number `n` on; the first bad line ends the assembly (R66). -/
def parseLines : Nat → List (List Char) → Except Error (List Instr)
  | _, [] => .ok []
  | n, line :: lines =>
    if isSkipped line then parseLines (n + 1) lines
    else
      match parseInstr line with
      | .error kind => .error ⟨n, kind⟩
      | .ok i =>
        match parseLines (n + 1) lines with
        | .error e => .error e
        | .ok is => .ok (i :: is)

/-- The Binary Program of a sequence of instructions: their encodings in order, with nothing between (R65). -/
def program (is : List Instr) : List Byte := is.flatMap encode

/-- The log record of an instruction (R68). -/
def logRecord (i : Instr) : LogRecord := ⟨i.opcode.row.value, i.fieldB, i.fieldC⟩

/-- The assembler: the program and the log, or an error and no output at all (R65, R66, R68). -/
def assemble (lines : List (List Char)) : Except Error Output :=
  match parseLines 1 lines with
  | .error e => .error e
  | .ok is => .ok ⟨program is, is.map logRecord⟩

/-- The assembler on a whole text, one line to each line break (R60; log entry 14). -/
def assembleText (text : List Char) : Except Error Output := assemble (splitOn '\n' text)

/-- The decimal digits of `n`, most significant first, before the digits `acc`; `fuel` bounds their number. -/
def decimalDigits : Nat → Nat → List Char → List Char
  | 0, _, acc => acc
  | fuel + 1, n, acc =>
    let digits := Char.ofNat ('0'.toNat + n % 10) :: acc
    if n < 10 then digits else decimalDigits fuel (n / 10) digits

/-- A number as a decimal numeral without leading zeros (R61). -/
def printNat (n : Nat) : List Char := decimalDigits (n + 1) n []

/-- An operand as text. -/
def printOperand : Operand → List Char
  | .numeral n => printNat n
  | .negative n => '-' :: printNat n

/-- The line of a source instruction: `<mnemonic> <B>,<C>` (R61). -/
def printSource (src : Source) : List Char :=
  mnemonic src.op ++ ' ' :: printOperand src.b ++ ',' :: printOperand src.c

/-- The line of an instruction (R61). -/
def printInstr (i : Instr) : List Char := printSource i.toSource

end Sys2Proof.Asm
end

