-- ==== Sys2Proof/Machine/Readout.lean ====
section
/-! DEFINITION. What the host reads from the core (`10_state.md` rule R28, `70_reset_and_hazards.md` rules R116, R122
and R123, `60_exceptions.md` rule R120). Reading changes nothing (rule R122). -/

namespace Sys2Proof.Machine

/-- The outputs of the status interface (R28). -/
structure StatusPort where
  status : BitVec 2
  faultCause : BitVec 2
  faultPc : BitVec 32
  faultVal : Word
  deriving DecidableEq, Repr

/-- The status interface, in any status (R28). -/
def State.statusPort (s : State) : StatusPort :=
  ⟨s.status.code, s.faultCause.code, s.faultPc, s.faultVal⟩

/-- The result read-out: any cell below `MEM_SIZE`, when `STATUS` is not RUNNING (R28). -/
def State.readout (s : State) (i : Nat) : Option Word :=
  if s.status ≠ .running ∧ i < s.memSize then some (s.mem.read i) else none

/-- The result of a run: the final memory of a HALTED run; a FAULTED run has none (R116, R120). -/
def State.result (s : State) : Option Memory :=
  match s.status with
  | .halted => some s.mem
  | .running => none
  | .faulted => none

/-- The dump of the inclusive range `[start, stop]` of a HALTED core, in ascending order of index (R123). No dump for
a range that leaves memory or is reversed, on which the source is silent (U8; log entry 13). -/
def State.dump (s : State) (start stop : Nat) : Option (List (Nat × Word)) :=
  if s.status = .halted ∧ start ≤ stop ∧ stop < s.memSize then
    some ((List.range' start (stop + 1 - start)).map fun i => (i, s.mem.read i))
  else none

end Sys2Proof.Machine
end

