-- ==== Sys2Proof/Safety.lean ====
section
/-! DEFINITION. What counts as a safe state and a safe run, in the terms the statements use: the outcome of a step read
as a state, the invariant of the machine, the check order of each instruction (`60_exceptions.md` rule R95) and the
specification's own step, transcribed in natural numbers (`40_fetch_decode_dispatch.md` rule R79). -/

namespace Sys2Proof.Machine

/-- The next state of an outcome, where there is one. -/
def nextState? : Host.Outcome State Fault Refusal → Option State
  | .next s => some s
  | .fault _ => none
  | .refused _ => none

/-- The program fits the width of `PROG_LEN` (R6, R114). -/
def State.ProgFits (s : State) : Prop := s.prog.length ≤ Config.maxProgLen

/-- The frame of a completed instruction: everything but `pc` and `Mem` is as before. -/
def State.SameButMemPc (s t : State) : Prop :=
  t.prog = s.prog ∧ t.memSize = s.memSize ∧
    t.faultCause = s.faultCause ∧ t.faultPc = s.faultPc ∧ t.faultVal = s.faultVal

/-- The frame of a raised fault (R99): the fault record holds the cause, the `pc` and the payload, and everything else
is as before. -/
def State.Raised (s t : State) (cause : FaultCause) (info : Word) : Prop :=
  t.prog = s.prog ∧ t.memSize = s.memSize ∧ t.pc = s.pc ∧ t.mem = s.mem ∧
    t.faultCause = cause ∧ t.faultPc = s.pc ∧ t.faultVal = info

/-- The first byte of the instruction at `pc` (R70); 0 where the program has ended, which no step meets. -/
def State.firstByte (s : State) : Byte := (s.prog[s.pc.toNat]?).getD 0

/-- The fault record of a state tells the truth about the instruction at `pc` (R21, R93 to R96). -/
def State.RecordTrue (s : State) : Prop :=
  match s.faultCause with
  | .none => s.faultPc = 0 ∧ s.faultVal = 0
  | .unknownOpcode =>
    s.faultPc = s.pc ∧ s.faultVal = (lookahead s.firstByte).setWidth 32 ∧ opcodeOf? (lookahead s.firstByte) = none
  | .truncatedInstruction =>
    s.faultPc = s.pc ∧ s.faultVal = (lookahead s.firstByte).setWidth 32 ∧
      ∃ op, opcodeOf? (lookahead s.firstByte) = some op ∧ s.prog.length < s.pc.toNat + op.ilen
  | .outOfBoundsAccess => s.faultPc = s.pc ∧ s.memSize ≤ s.faultVal.toNat

/-- The invariant of the machine: the program fits its width and `pc` stays within it (R17), the memory is canonical and
lists no cell outside memory (R18), and the fault record is 0 until a fault is raised and true of the faulting
instruction, at an offset inside the program, from then on (R21). -/
structure State.Inv (s : State) : Prop where
  progFits : s.ProgFits
  pcInProg : s.pc.toNat ≤ s.prog.length
  memCanonical : s.mem.wf
  memInside : ∀ c ∈ s.mem, c.1 < s.memSize
  faultInside : s.faultCause ≠ .none → s.pc.toNat < s.prog.length
  recordTrue : s.RecordTrue

/-- The indices an instruction checks, in order (R95). A pointer's entry is what its cell reads as; where the cell's own
index is outside memory the list's earlier entry already is, so the first offending entry is never that pointer. -/
def checkedIndices (i : Instr) (s : State) : List Word :=
  match i with
  | .loadConst b _ => [b.setWidth 32]
  | .loadMem b c => [b.setWidth 32, s.mem.read b.toNat, c.setWidth 32]
  | .storeMem b c => [b.setWidth 32, s.mem.read b.toNat, c.setWidth 32]
  | .bitreverse b c => [b.setWidth 32, s.mem.read b.toNat, c.setWidth 32, s.mem.read c.toNat]

/-- The first index of a list outside memory. -/
def firstOutside (memSize : Nat) (is : List Word) : Option Word := is.find? fun i => decide (memSize ≤ i.toNat)

/-- The cell an instruction writes (R46). -/
def destination (i : Instr) (s : State) : Nat :=
  match i with
  | .loadConst b _ => b.toNat
  | .loadMem _ c => c.toNat
  | .storeMem b _ => (s.mem.read b.toNat).toNat
  | .bitreverse _ c => (s.mem.read c.toNat).toNat

/-- The word an instruction writes (R81 to R83, R88). -/
def writtenWord (i : Instr) (s : State) : Word :=
  match i with
  | .loadConst _ c => BitVec.ofNat 32 c.toNat
  | .loadMem b _ => s.mem.read (s.mem.read b.toNat).toNat
  | .storeMem _ c => s.mem.read c.toNat
  | .bitreverse b _ => bitrev32 (s.mem.read (s.mem.read b.toNat).toNat)

/-- The cells a completed instruction reads (R46). -/
def cellsRead (i : Instr) (s : State) : List Nat :=
  match i with
  | .loadConst _ _ => []
  | .loadMem b _ => [b.toNat, (s.mem.read b.toNat).toNat]
  | .storeMem b c => [b.toNat, c.toNat]
  | .bitreverse b c => [b.toNat, c.toNat, (s.mem.read b.toNat).toNat]

/-- The bytes from `pc` on are encodings of instructions (R65), and no fetch fault is recorded. -/
def State.Assembled (s : State) : Prop :=
  (∃ is : List Instr, s.prog.drop s.pc.toNat = Asm.program is) ∧
    (s.faultCause = .none ∨ s.faultCause = .outOfBoundsAccess)

/-- `ProgRead(o, n)` as a number, big-endian (R8). -/
def progReadNat (prog : List Byte) (o n : Nat) : Nat :=
  ((prog.drop o).take n).foldl (fun w byte => w * 256 + byte.toNat) 0

/-- The instruction of R77's dispatch table with opcode number `a` and field numbers `b` and `c`. -/
def dispatch79 (a b c : Nat) : Option Instr :=
  if a = 58 then some (.loadConst (BitVec.ofNat 10 b) (BitVec.ofNat 24 c))
  else if a = 63 then some (.loadMem (BitVec.ofNat 10 b) (BitVec.ofNat 16 c))
  else if a = 31 then some (.storeMem (BitVec.ofNat 10 b) (BitVec.ofNat 16 c))
  else if a = 8 then some (.bitreverse (BitVec.ofNat 10 b) (BitVec.ofNat 16 c))
  else none

/-- How many bytes from `pc` on a step fetches (R26): the whole instruction where it fits the program, and the
first byte alone where its opcode is unknown or it is truncated. -/
def fetchWidth (s : State) : Nat :=
  match opcodeOf? (lookahead s.firstByte) with
  | none => 1
  | some op => if s.pc.toNat + op.ilen ≤ s.prog.length then op.ilen else 1

/-- A transcription of R79's `Step()` in natural numbers, independent of the decoder, the opcode table and the meanings:
the opcode is a quotient of the first byte, the length is 5 or 4, the fields are quotients and remainders of the
big-endian word, the bounds checks are one search of the check list. It is the state after the step of a RUNNING core. -/
def step79 (s : State) : State :=
  let pc := s.pc.toNat
  let a := progReadNat s.prog pc 1 / 4
  if a ≠ 58 ∧ a ≠ 63 ∧ a ≠ 31 ∧ a ≠ 8 then
    { s with faultCause := .unknownOpcode, faultPc := s.pc, faultVal := BitVec.ofNat 32 a }
  else
    let n := if a = 58 then 5 else 4
    if s.prog.length < pc + n then
      { s with faultCause := .truncatedInstruction, faultPc := s.pc, faultVal := BitVec.ofNat 32 a }
    else
      let w := progReadNat s.prog pc n
      match dispatch79 a (w / 2 ^ (8 * n - 16) % 1024) (w % 2 ^ (8 * n - 16)) with
      | none => s
      | some i =>
        match firstOutside s.memSize (checkedIndices i s) with
        | some x => { s with faultCause := .outOfBoundsAccess, faultPc := s.pc, faultVal := x }
        | none =>
          { s with mem := s.mem.write (destination i s) (writtenWord i s), pc := BitVec.ofNat 32 (pc + n) }

end Sys2Proof.Machine
end

