-- ==== Sys2Proof/Certificates/Slice0/Obligations.lean ====
section
/-! DEFINITION. The statements about the core. Each docstring names the rules of `spec/` it formalises, or the sections
it rests on. -/

open Sys2Proof Sys2Proof.Machine

/-! Encoding (`30_encoding.md`) -/

/-- R54: the instruction and its length, by the first byte alone. -/
def Obligations.FirstByteSelectsInstruction : Prop :=
  (∀ b0 : Byte,
    (lookahead b0).toNat = (b0.toNat >>> 2) &&& 0x3F ∧
    opcodeOf? (lookahead b0) =
      if 0x20 ≤ b0.toNat ∧ b0.toNat ≤ 0x23 then some .bitreverse
      else if 0x7C ≤ b0.toNat ∧ b0.toNat ≤ 0x7F then some .storeMem
      else if 0xE8 ≤ b0.toNat ∧ b0.toNat ≤ 0xEB then some .loadConst
      else if 0xFC ≤ b0.toNat ∧ b0.toNat ≤ 0xFF then some .loadMem
      else none) ∧
  opcodeOf? 8 = some .bitreverse ∧ opcodeOf? 31 = some .storeMem ∧
  opcodeOf? 58 = some .loadConst ∧ opcodeOf? 63 = some .loadMem ∧
  ((List.range 64).filter fun a => opcodeOf? (BitVec.ofNat 6 a) = none).length = 60 ∧
  ((List.range 256).filter fun b0 => opcodeOf? (lookahead (BitVec.ofNat 8 b0)) = none).length = 240 ∧
  Opcode.bitreverse.ilen = 4 ∧ Opcode.storeMem.ilen = 4 ∧ Opcode.loadConst.ilen = 5 ∧ Opcode.loadMem.ilen = 4

/-- R53: every encoded instruction word has its row's length and match under its row's mask, and its first byte is the
opcode value and then the top two bits of B. -/
def Obligations.EncodedWordsMatchOpcodeMap : Prop :=
  (∀ b c, (encode (.loadConst b c)).length = 5 ∧
    progReadNat (encode (.loadConst b c)) 0 5 &&& 0xFC00000000 = 0xE800000000 ∧
    progReadNat (encode (.loadConst b c)) 0 1 = 0xE8 + b.toNat / 256 ∧ b.toNat / 256 ≤ 3) ∧
  (∀ b c, (encode (.loadMem b c)).length = 4 ∧
    progReadNat (encode (.loadMem b c)) 0 4 &&& 0xFC000000 = 0xFC000000 ∧
    progReadNat (encode (.loadMem b c)) 0 1 = 0xFC + b.toNat / 256 ∧ b.toNat / 256 ≤ 3) ∧
  (∀ b c, (encode (.storeMem b c)).length = 4 ∧
    progReadNat (encode (.storeMem b c)) 0 4 &&& 0xFC000000 = 0x7C000000 ∧
    progReadNat (encode (.storeMem b c)) 0 1 = 0x7C + b.toNat / 256 ∧ b.toNat / 256 ≤ 3) ∧
  (∀ b c, (encode (.bitreverse b c)).length = 4 ∧
    progReadNat (encode (.bitreverse b c)) 0 4 &&& 0xFC000000 = 0x20000000 ∧
    progReadNat (encode (.bitreverse b c)) 0 1 = 0x20 + b.toNat / 256 ∧ b.toNat / 256 ≤ 3) ∧
  Opcode.loadConst.row.value = 58 ∧ Opcode.loadMem.row.value = 63 ∧
  Opcode.storeMem.row.value = 31 ∧ Opcode.bitreverse.row.value = 8

/-- Rows E5 to E7, E12, E15 and E18 of `95_test_vectors.md` section 2.1, bytes written out from R48 and R49. -/
def Obligations.SpecVectorsDecode : Prop :=
  decode [0xEA, 0x00, 0x12, 0x34, 0x56] = .ok (.loadConst 512 0x123456, []) ∧
  decode [0xEA, 0xAA, 0x55, 0x55, 0x55] = .ok (.loadConst 0x2AA 0x555555, []) ∧
  decode [0xE9, 0x00, 0x01, 0x00, 0x00] = .ok (.loadConst 256 0x010000, []) ∧
  decode [0xFD, 0x55, 0xAA, 0xAA] = .ok (.loadMem 0x155 0xAAAA, []) ∧
  decode [0x7D, 0x00, 0x01, 0x00] = .ok (.storeMem 256 256, []) ∧
  decode [0x20, 0x05, 0x00, 0x06] = .ok (.bitreverse 5 6, [])

/-- R58: the four laws of the encoding. -/
def Obligations.EncodingLaws : Prop :=
  (∀ (i : Instr) (rest : List Byte), decode (encode i ++ rest) = .ok (i, rest)) ∧
  (∀ i : Instr, (encode i).length = i.opcode.ilen ∧
    (encode i).length = if i.opcode = .loadConst then 5 else 4) ∧
  (∀ (i : Instr) (b0 : Byte) (rest : List Byte), encode i = b0 :: rest →
    lookahead b0 = i.opcode.row.value ∧ opcodeOf? (lookahead b0) = some i.opcode) ∧
  (∀ (b0 : Byte) (rest : List Byte) (op : Opcode), opcodeOf? (lookahead b0) = some op →
    (b0 :: rest).length = op.ilen →
    ∃ i : Instr, i.opcode = op ∧ decode (b0 :: rest) = .ok (i, []) ∧ encode i = b0 :: rest) ∧
  (∀ (bytes rest : List Byte) (i : Instr), decode bytes = .ok (i, rest) → encode i ++ rest = bytes)

/-- R59: the A field of the full word is the look-ahead opcode, in both formats. -/
def Obligations.LookaheadIsFieldAOfWord : Prop :=
  ∀ b0 b1 b2 b3 b4 : Byte,
    (word40 b0 b1 b2 b3 b4).extractLsb' 34 6 = lookahead b0 ∧
    (word32 b0 b1 b2 b3).extractLsb' 26 6 = lookahead b0

/-- R50 and R75: the decoded fields by bytes, and as bit ranges of the big-endian word. -/
def Obligations.FieldsByByteAndByWord : Prop :=
  (∀ (b0 b1 b2 b3 b4 : Byte) (rest after : List Byte) (i : Instr),
    decode (b0 :: b1 :: b2 :: b3 :: b4 :: rest) = .ok (i, after) → i.opcode = .loadConst →
    after = rest ∧ i.opcode.row.value.toNat = b0.toNat >>> 2 ∧
    i.fieldB.toNat = ((b0.toNat &&& 0x03) <<< 8) ||| b1.toNat ∧
    i.fieldC = (b2.toNat <<< 16) ||| (b3.toNat <<< 8) ||| b4.toNat ∧
    i.opcode.row.value.toNat = progReadNat [b0, b1, b2, b3, b4] 0 5 >>> 34 ∧
    i.fieldB.toNat = (progReadNat [b0, b1, b2, b3, b4] 0 5 >>> 24) % 2 ^ 10 ∧
    i.fieldC = progReadNat [b0, b1, b2, b3, b4] 0 5 % 2 ^ 24) ∧
  (∀ (b0 b1 b2 b3 : Byte) (rest after : List Byte) (i : Instr),
    decode (b0 :: b1 :: b2 :: b3 :: rest) = .ok (i, after) → i.opcode ≠ .loadConst →
    after = rest ∧ i.opcode.row.value.toNat = b0.toNat >>> 2 ∧
    i.fieldB.toNat = ((b0.toNat &&& 0x03) <<< 8) ||| b1.toNat ∧
    i.fieldC = (b2.toNat <<< 8) ||| b3.toNat ∧
    i.opcode.row.value.toNat = progReadNat [b0, b1, b2, b3] 0 4 >>> 26 ∧
    i.fieldB.toNat = (progReadNat [b0, b1, b2, b3] 0 4 >>> 16) % 2 ^ 10 ∧
    i.fieldC = progReadNat [b0, b1, b2, b3] 0 4 % 2 ^ 16)

/-- R51: the encoding is the big-endian bytes of `(A << 34) | (B << 24) | C` or `(A << 26) | (B << 16) | C`. -/
def Obligations.EncodingIsShiftedFields : Prop :=
  ∀ i : Instr,
    encode i =
      (if i.opcode = .loadConst then
        bigEndianBytes 5 ((i.opcode.row.value.toNat <<< 34) ||| (i.fieldB.toNat <<< 24) ||| i.fieldC)
      else
        bigEndianBytes 4 ((i.opcode.row.value.toNat <<< 26) ||| (i.fieldB.toNat <<< 16) ||| i.fieldC)) ∧
    i.fieldB.toNat ≤ 1023 ∧ i.fieldC ≤ (if i.opcode = .loadConst then 2 ^ 24 - 1 else 65535)

/-! The assembler's input (`30_encoding.md` section 8) -/

/-- `30_encoding.md` section 8 (range): a line assembles exactly when its operands are in range, to the instruction with
those operands, and else it is the error `FieldOverflow`, never a truncated operand. That a zero with a minus sign is
rejected as a negative operand is the model's choice (log entry 16). -/
def Obligations.OperandRangeIsEnforced : Prop :=
  (∀ (op : Opcode) (b c : Operand) (i : Instr),
    Asm.parseInstr (Asm.printSource ⟨op, b, c⟩) = .ok i ↔
      ∃ nb nc, b = .numeral nb ∧ c = .numeral nc ∧ nb ≤ 1023 ∧
        nc ≤ (if op = .loadConst then 16777215 else 65535) ∧
        i.opcode = op ∧ i.fieldB.toNat = nb ∧ i.fieldC = nc) ∧
  (∀ (op : Opcode) (b c : Operand),
    (¬∃ nb nc, b = .numeral nb ∧ c = .numeral nc ∧ nb ≤ 1023 ∧
      nc ≤ (if op = .loadConst then 16777215 else 65535)) →
    Asm.parseInstr (Asm.printSource ⟨op, b, c⟩) = .error .fieldOverflow)

/-- `30_encoding.md` section 8 (mnemonics): they are exactly four, and a line that begins with any other word is the error
`UnknownMnemonic`, with no output. That a mnemonic ends at the first white space is the model's choice (log entry 14). -/
def Obligations.UnknownMnemonicIsRejected : Prop :=
  Opcode.all.map Asm.mnemonic =
    ["LOAD_CONST".toList, "LOAD_MEM".toList, "STORE_MEM".toList, "BITREVERSE".toList] ∧
  (∀ op, Asm.mnemonicOf? (Asm.mnemonic op) = some op) ∧
  ∀ word rest : List Char, word ≠ [] → (∀ c ∈ word, c.isWhitespace = false) → word.head? ≠ some ';' →
    (∀ op, word ≠ Asm.mnemonic op) →
    ∃ n, Asm.assemble [word ++ ' ' :: rest] = .error ⟨n, .unknownMnemonic⟩

/-- `30_encoding.md` section 8 (arity): an operand count other than two, none at all and operands that are no numerals
included, or an operand that is no base-10 integer, is the error `WrongOperandArity`. That it is this error also where
an operand is out of range, the count and form being checked before the range, is the model's choice (log entry 15). -/
def Obligations.WrongArityIsRejected : Prop :=
  (∀ (op : Opcode) (operands : List (List Char)), operands.length ≠ 2 → (∀ x ∈ operands, ',' ∉ x) →
    Asm.parseInstr (Asm.mnemonic op ++ ' ' :: [','].intercalate operands) = .error .wrongOperandArity) ∧
  (∀ op : Opcode, Asm.parseInstr (Asm.mnemonic op) = .error .wrongOperandArity) ∧
  (∀ (op : Opcode) (x y : List Char), ',' ∉ x → ',' ∉ y →
    Asm.operand? (Asm.trim x) = none ∨ Asm.operand? (Asm.trim y) = none →
    Asm.parseInstr (Asm.mnemonic op ++ ' ' :: x ++ ',' :: y) = .error .wrongOperandArity)

/-- R65: blank and comment lines aside, the assembler emits the encodings of the instruction lines in source order with
nothing between them, and no instruction lines give the empty program; every instruction has such a line. -/
def Obligations.AssemblyConcatenatesEncodings : Prop :=
  (∀ (lines : List (List Char)) (is : List Instr),
    List.Forall₂ (fun line i => Asm.parseInstr line = .ok i)
      (lines.filter fun line => !Asm.isSkipped line) is →
    ∃ out, Asm.assemble lines = .ok out ∧ out.prog = is.flatMap encode ∧
      out.log.length = is.length ∧
      (∀ (k : Nat) (i : Instr), is[k]? = some i →
        out.log[k]? = some ⟨i.opcode.row.value, i.fieldB, i.fieldC⟩) ∧
      (is = [] → out.prog.length = 0)) ∧
  (∀ i : Instr, Asm.isSkipped (Asm.printInstr i) = false ∧ Asm.parseInstr (Asm.printInstr i) = .ok i)

/-- `30_encoding.md` section 8 (assembly errors): the first bad line ends the assembly with its own error and no output.
Line numbers count from 1, which is the model's choice (log entry 15). -/
def Obligations.FirstBadLineEndsAssembly : Prop :=
  ∀ (before : List (List Char)) (line : List Char) (after : List (List Char)) (kind : Asm.ErrorKind),
    (∀ l ∈ before, Asm.isSkipped l = true ∨ ∃ i, Asm.parseInstr l = .ok i) →
    Asm.isSkipped line = false → Asm.parseInstr line = .error kind →
    Asm.assemble (before ++ line :: after) = .error ⟨before.length + 1, kind⟩

/-- `30_encoding.md` section 8 and `60_exceptions.md` section 1: a program the assembler emits never makes the core raise
`UnknownOpcode` or `TruncatedInstruction`, however many steps it runs. -/
def Obligations.AssembledProgramsFetchCleanly : Prop :=
  ∀ (lines : List (List Char)) (out : Asm.Output) (memSize k : Nat) (t : State),
    Asm.assemble lines = .ok out →
    core.run k (State.boot out.prog memSize) = .next t →
    t.faultCause = .none ∨ t.faultCause = .outOfBoundsAccess

/-- `30_encoding.md` section 8 and `60_exceptions.md` section 1: every step keeps that the bytes from `pc` on are encodings
of instructions and that no fetch fault is recorded. -/
def Obligations.StepKeepsAssembledProgram : Prop :=
  ∀ s t : State, s.Assembled → step s = .next t → t.Assembled

/-- `30_encoding.md` section 8: a run of the assembler's output starts in such a state. -/
def Obligations.AssemblerOutputIsAssembled : Prop :=
  ∀ (lines : List (List Char)) (out : Asm.Output) (memSize : Nat),
    Asm.assemble lines = .ok out → (State.boot out.prog memSize).Assembled

/-! Fetch and step (`40_fetch_decode_dispatch.md`) -/

/-- R22: STATUS of every state, its codes, and that there is no step in the terminal ones. -/
def Obligations.StatusOfEveryState : Prop :=
  (∀ s : State,
    (s.status = .faulted ↔ s.faultCause.code ≠ 0) ∧
    (s.status = .halted ↔ s.faultCause.code = 0 ∧ s.prog.length ≤ s.pc.toNat) ∧
    (s.status = .running ↔ s.faultCause.code = 0 ∧ s.pc.toNat < s.prog.length) ∧
    (s.status ≠ .running → ∀ t, step s ≠ .next t) ∧
    s.statusPort.status ≠ 3) ∧
  Status.running.code = 0 ∧ Status.halted.code = 1 ∧ Status.faulted.code = 2

/-- R69: the core has a step exactly when STATUS is RUNNING, and a step is one whole instruction or one fault. -/
def Obligations.StepExistsExactlyWhenRunning : Prop :=
  ∀ s : State, s.ProgFits →
    ((∃ t, step s = .next t) ↔ s.faultCause = .none ∧ s.pc.toNat < s.prog.length) ∧
    (s.status = .halted → step s = .fault .halted) ∧
    (s.status = .faulted → step s = .fault .faulted) ∧
    (∀ t, step s = .next t → t.faultCause ≠ .none ∨ ∃ i, fetch s = .ok i ∧ exec i s = .next t)

/-- Decision D8 of `92_eei_decisions.md`: a program longer than `2^32 - 1` bytes is refused (log entry 1). -/
def Obligations.TooLongProgramIsRefused : Prop :=
  ∀ s : State, 2 ^ 32 ≤ s.prog.length → step s = .refused .programTooLong

/-- `40_fetch_decode_dispatch.md` sections 4 to 6: where the bytes at `pc` decode to an instruction, the step is that
instruction's meaning; the meaning itself moves `pc` past the instruction. -/
def Obligations.StepRunsDecodedInstruction : Prop :=
  ∀ (s : State) (i : Instr) (after : List Byte), s.ProgFits → s.faultCause = .none →
    s.pc.toNat < s.prog.length → decode (s.prog.drop s.pc.toNat) = .ok (i, after) → step s = exec i s

/-- The same from the bytes themselves: where an instruction's encoding stands at `pc`, the step is its meaning. -/
def Obligations.StepRunsEncodedInstruction : Prop :=
  ∀ (s : State) (i : Instr) (before after : List Byte), s.ProgFits → s.faultCause = .none →
    s.prog = before ++ encode i ++ after → s.pc.toNat = before.length → step s = exec i s

/-- The host's placing of an opcode-table word (log entries 9, 10): the next step runs exactly the instruction the
decoder reads from the word, and the placing changes neither `pc`, `MEM_SIZE` nor memory. -/
def Obligations.PlacedWordIsRunNext : Prop :=
  ∀ (s : State) (nbits w : Nat) (i : Instr), decodeTableWord nbits w = some i →
    (s.withFetchWord nbits w).ProgFits →
    step (s.withFetchWord nbits w) = exec i (s.withFetchWord nbits w) ∧
    (s.withFetchWord nbits w).pc = s.pc ∧ (s.withFetchWord nbits w).memSize = s.memSize ∧
    (s.withFetchWord nbits w).mem = s.mem

/-- R71 and R93: an opcode outside {58, 63, 31, 8} raises `UnknownOpcode` with the opcode value at the instruction's
offset, whatever bytes follow, and does nothing else. -/
def Obligations.UnknownOpcodeStops : Prop :=
  FaultCause.unknownOpcode.code = 1 ∧
  ∀ s : State, s.ProgFits → s.faultCause = .none → s.pc.toNat < s.prog.length →
    (∀ a ∈ [58, 63, 31, 8], (lookahead s.firstByte).toNat ≠ a) →
    ∃ t, step s = .next t ∧
      s.Raised t .unknownOpcode (BitVec.ofNat 32 (lookahead s.firstByte).toNat) ∧ t.status = .faulted

/-- R73 and R94: an instruction that does not fit the rest of the program raises `TruncatedInstruction` with its opcode
and does nothing else; one that fits exactly is not truncated. -/
def Obligations.TruncationStops : Prop :=
  FaultCause.truncatedInstruction.code = 2 ∧
  ∀ (s : State) (n : Nat), s.ProgFits → s.faultCause = .none → s.pc.toNat < s.prog.length →
    ((lookahead s.firstByte).toNat = 58 ∧ n = 5 ∨
      ((lookahead s.firstByte).toNat = 63 ∨ (lookahead s.firstByte).toNat = 31 ∨
        (lookahead s.firstByte).toNat = 8) ∧ n = 4) →
    (s.prog.length < s.pc.toNat + n →
      (1 ≤ s.prog.length - s.pc.toNat ∧ s.prog.length - s.pc.toNat ≤ n - 1) ∧
      ∃ t, step s = .next t ∧
        s.Raised t .truncatedInstruction (BitVec.ofNat 32 (lookahead s.firstByte).toNat) ∧ t.status = .faulted) ∧
    (s.pc.toNat + n ≤ s.prog.length →
      ∃ t, step s = .next t ∧ t.faultCause ≠ .truncatedInstruction ∧ t.faultCause ≠ .unknownOpcode)

/-- R96 and R98: which fault a step raises and what it records, in the order of the step function. -/
def Obligations.FaultsInPriorityOrder : Prop :=
  ∀ s t : State, step s = .next t →
    (opcodeOf? (lookahead s.firstByte) = none →
      s.Raised t .unknownOpcode ((lookahead s.firstByte).setWidth 32)) ∧
    (∀ op, opcodeOf? (lookahead s.firstByte) = some op → s.prog.length < s.pc.toNat + op.ilen →
      s.Raised t .truncatedInstruction ((lookahead s.firstByte).setWidth 32)) ∧
    (∀ op, opcodeOf? (lookahead s.firstByte) = some op → s.pc.toNat + op.ilen ≤ s.prog.length →
      ∃ i, i.opcode = op ∧ fetch s = .ok i ∧
        (∀ x, firstOutside s.memSize (checkedIndices i s) = some x →
          s.Raised t .outOfBoundsAccess x ∧ (op = .loadConst → s.memSize < 1024)) ∧
        (firstOutside s.memSize (checkedIndices i s) = none →
          t.faultCause = .none ∧ t.faultPc = s.faultPc ∧ t.faultVal = s.faultVal)) ∧
    FaultCause.none.code = 0 ∧ FaultCause.unknownOpcode.code = 1 ∧
    FaultCause.truncatedInstruction.code = 2 ∧ FaultCause.outOfBoundsAccess.code = 3

/-- R79: the model's step is the specification's `Step()`, transcribed in natural numbers without the decoder, the opcode
table and the meanings; and there is no step where `Step()` has none. -/
def Obligations.StepRefinesWholeStepRule : Prop :=
  ∀ s : State, s.ProgFits →
    (s.faultCause = .none → s.pc.toNat < s.prog.length → step s = .next (step79 s)) ∧
    (s.faultCause ≠ .none ∨ s.prog.length ≤ s.pc.toNat → ∀ t, step s ≠ .next t)

/-- R78: a completed step advances `pc` by the instruction's length, in full (no wrap), and a faulting one leaves it. -/
def Obligations.PcAdvancesByLength : Prop :=
  ∀ s t : State, step s = .next t →
    (t.faultCause ≠ .none → t.pc = s.pc) ∧
    (t.faultCause = .none →
      (∃ op, opcodeOf? (lookahead s.firstByte) = some op ∧ t.pc.toNat = s.pc.toNat + op.ilen) ∧
      (t.pc.toNat < t.prog.length → t.status = .running) ∧
      (t.pc.toNat = t.prog.length → t.status = .halted))

/-- R26 (`10_state.md` section 9): a step depends on no program byte but those it fetches, and on `PROG_LEN`. -/
def Obligations.StepReadsOnlyFetchedBytes : Prop :=
  ∀ (s t : State) (other : List Byte), other.length = s.prog.length →
    (∀ k < fetchWidth s, other[s.pc.toNat + k]? = s.prog[s.pc.toNat + k]?) →
    step s = .next t → step { s with prog := other } = .next { t with prog := other }

/-- `40_fetch_decode_dispatch.md` section 8: control never depends on data. Two cores at the same place of the same
program whose steps both complete are at the same place again. -/
def Obligations.ControlIgnoresData : Prop :=
  ∀ s s' t t' : State, s'.prog = s.prog → s'.pc = s.pc → step s = .next t → step s' = .next t' →
    t.faultCause = .none → t'.faultCause = .none → t'.pc = t.pc

/-! The instructions (`41_data_movement.md`, `42_bitreverse.md`) -/

/-- R81: `LOAD_CONST` completes for every destination in memory, with its result and its frame, and else raises
`OutOfBoundsAccess(B)`. -/
def Obligations.LoadConstEffect : Prop :=
  ∀ (b : BitVec 10) (c : BitVec 24) (s : State),
    (b.toNat < s.memSize →
      ∃ t, exec (.loadConst b c) s = .next t ∧ t.pc = s.pc + 5 ∧ s.SameButMemPc t ∧
        (∀ a, t.mem.read a = if a = b.toNat then BitVec.ofNat 32 c.toNat else s.mem.read a) ∧
        (t.mem.read b.toNat).toNat < 2 ^ 24) ∧
    (s.memSize ≤ b.toNat →
      ∃ t, exec (.loadConst b c) s = .next t ∧ s.Raised t .outOfBoundsAccess (BitVec.ofNat 32 b.toNat)) ∧
    (s.memSize = 1024 → b.toNat < s.memSize)

/-- R82: `LOAD_MEM` completes where B, the pointer in cell B and C are in memory, with its result and its frame, and else
raises `OutOfBoundsAccess` on the first of them that is not. -/
def Obligations.LoadMemEffect : Prop :=
  ∀ (b : BitVec 10) (c : BitVec 16) (s : State) (p : Word), p = s.mem.read b.toNat →
    (b.toNat < s.memSize → p.toNat < s.memSize → c.toNat < s.memSize →
      ∃ t, exec (.loadMem b c) s = .next t ∧ t.pc = s.pc + 4 ∧ s.SameButMemPc t ∧
        ∀ a, t.mem.read a = if a = c.toNat then s.mem.read p.toNat else s.mem.read a) ∧
    (s.memSize ≤ b.toNat →
      ∃ t, exec (.loadMem b c) s = .next t ∧ s.Raised t .outOfBoundsAccess (BitVec.ofNat 32 b.toNat)) ∧
    (b.toNat < s.memSize → s.memSize ≤ p.toNat →
      ∃ t, exec (.loadMem b c) s = .next t ∧ s.Raised t .outOfBoundsAccess p) ∧
    (b.toNat < s.memSize → p.toNat < s.memSize → s.memSize ≤ c.toNat →
      ∃ t, exec (.loadMem b c) s = .next t ∧ s.Raised t .outOfBoundsAccess (BitVec.ofNat 32 c.toNat)) ∧
    (s.memSize = 1024 → 1024 ≤ c.toNat →
      ∃ t, exec (.loadMem b c) s = .next t ∧ t.faultCause = .outOfBoundsAccess ∧ t.mem = s.mem)

/-- R83: `STORE_MEM` completes where B, the pointer in cell B and C are in memory, with its result and its frame, and else
raises `OutOfBoundsAccess` on the first of them that is not. -/
def Obligations.StoreMemEffect : Prop :=
  ∀ (b : BitVec 10) (c : BitVec 16) (s : State) (p : Word), p = s.mem.read b.toNat →
    (b.toNat < s.memSize → p.toNat < s.memSize → c.toNat < s.memSize →
      ∃ t, exec (.storeMem b c) s = .next t ∧ t.pc = s.pc + 4 ∧ s.SameButMemPc t ∧
        ∀ a, t.mem.read a = if a = p.toNat then s.mem.read c.toNat else s.mem.read a) ∧
    (s.memSize ≤ b.toNat →
      ∃ t, exec (.storeMem b c) s = .next t ∧ s.Raised t .outOfBoundsAccess (BitVec.ofNat 32 b.toNat)) ∧
    (b.toNat < s.memSize → s.memSize ≤ p.toNat →
      ∃ t, exec (.storeMem b c) s = .next t ∧ s.Raised t .outOfBoundsAccess p) ∧
    (b.toNat < s.memSize → p.toNat < s.memSize → s.memSize ≤ c.toNat →
      ∃ t, exec (.storeMem b c) s = .next t ∧ s.Raised t .outOfBoundsAccess (BitVec.ofNat 32 c.toNat))

/-- R88: `BITREVERSE` completes where B, the pointer in cell B, C and the pointer in cell C are in memory, with its result
and its frame, and else raises `OutOfBoundsAccess` on the first of them that is not. -/
def Obligations.BitreverseEffect : Prop :=
  ∀ (b : BitVec 10) (c : BitVec 16) (s : State) (p q : Word),
    p = s.mem.read b.toNat → q = s.mem.read c.toNat →
    (b.toNat < s.memSize → p.toNat < s.memSize → c.toNat < s.memSize → q.toNat < s.memSize →
      ∃ t, exec (.bitreverse b c) s = .next t ∧ t.pc = s.pc + 4 ∧ s.SameButMemPc t ∧
        (∀ k < 32, (t.mem.read q.toNat).getLsbD k = (s.mem.read p.toNat).getLsbD (31 - k)) ∧
        ∀ a, a ≠ q.toNat → t.mem.read a = s.mem.read a) ∧
    (s.memSize ≤ b.toNat →
      ∃ t, exec (.bitreverse b c) s = .next t ∧ s.Raised t .outOfBoundsAccess (BitVec.ofNat 32 b.toNat)) ∧
    (b.toNat < s.memSize → s.memSize ≤ p.toNat →
      ∃ t, exec (.bitreverse b c) s = .next t ∧ s.Raised t .outOfBoundsAccess p) ∧
    (b.toNat < s.memSize → p.toNat < s.memSize → s.memSize ≤ c.toNat →
      ∃ t, exec (.bitreverse b c) s = .next t ∧ s.Raised t .outOfBoundsAccess (BitVec.ofNat 32 c.toNat)) ∧
    (b.toNat < s.memSize → p.toNat < s.memSize → c.toNat < s.memSize → s.memSize ≤ q.toNat →
      ∃ t, exec (.bitreverse b c) s = .next t ∧ s.Raised t .outOfBoundsAccess q)

/-- R95: every instruction checks its indices in the fixed order and records the first that is outside memory; with none
outside it writes one cell, its destination in memory, and no other. -/
def Obligations.BoundsCheckedInOrder : Prop :=
  ∀ (i : Instr) (s : State),
    (∀ x, firstOutside s.memSize (checkedIndices i s) = some x →
      ∃ t, exec i s = .next t ∧ s.Raised t .outOfBoundsAccess x) ∧
    (firstOutside s.memSize (checkedIndices i s) = none →
      destination i s < s.memSize ∧
      ∃ t, exec i s = .next t ∧ s.SameButMemPc t ∧ t.pc = s.pc + BitVec.ofNat 32 i.opcode.ilen ∧
        ∀ a, t.mem.read a = if a = destination i s then writtenWord i s else s.mem.read a)

/-- R87: bit `i` of `bitrev32(v)` is bit `31 - i` of `v`, and its value is the sum of the moved bits. -/
def Obligations.Bitrev32ReversesBits : Prop :=
  ∀ v : Word,
    (∀ i < 32, (bitrev32 v).getLsbD i = v.getLsbD (31 - i)) ∧
    (bitrev32 v).toNat = ((List.range 32).map fun i => (v.getLsbD i).toNat * 2 ^ (31 - i)).sum

/-- R89: the properties of `bitrev32` and its sample values. -/
def Obligations.Bitrev32Properties : Prop :=
  (∀ v, bitrev32 (bitrev32 v) = v) ∧
  Function.Bijective bitrev32 ∧
  (∀ v w, bitrev32 (v &&& w) = bitrev32 v &&& bitrev32 w ∧ bitrev32 (v ||| w) = bitrev32 v ||| bitrev32 w ∧
    bitrev32 (v ^^^ w) = bitrev32 v ^^^ bitrev32 w ∧ bitrev32 (~~~v) = ~~~(bitrev32 v)) ∧
  (∀ v, bitrev32 v = 0 ↔ v = 0) ∧
  (∀ k < 32, bitrev32 (BitVec.ofNat 32 (2 ^ k)) = BitVec.ofNat 32 (2 ^ (31 - k))) ∧
  (∀ (v : Word) (k : Nat), k ≤ 32 → v.toNat < 2 ^ k → 2 ^ (32 - k) ∣ (bitrev32 v).toNat) ∧
  bitrev32 0x00000002 = 0x40000000 ∧ bitrev32 0x12345678 = 0x1E6A2C48 ∧ bitrev32 0x00ABCDEF = 0xF7B3D500 ∧
  bitrev32 0xF0F0F0F0 = 0x0F0F0F0F ∧ bitrev32 0x0000FFFF = 0xFFFF0000 ∧ bitrev32 0xAAAAAAAA = 0x55555555 ∧
  bitrev32 0xDEADBEEF = 0xF77DB57B

/-- `42_bitreverse.md` section 2, corner case (f): in place (both pointers equal, and the cell neither pointer cell),
applying `BITREVERSE` twice restores the whole memory. -/
def Obligations.BitreverseTwiceRestores : Prop :=
  ∀ (b : BitVec 10) (c : BitVec 16) (s : State) (p : Word),
    s.mem.read b.toNat = p → s.mem.read c.toNat = p →
    b.toNat < s.memSize → c.toNat < s.memSize → p.toNat < s.memSize →
    p.toNat ≠ b.toNat → p.toNat ≠ c.toNat →
    ∃ t u, exec (.bitreverse b c) s = .next t ∧ exec (.bitreverse b c) t = .next u ∧
      ∀ a, u.mem.read a = s.mem.read a

/-- The aliasing cases of `41_data_movement.md` sections 2, 3 and 6 and `42_bitreverse.md` section 2: what lands where a
destination is also a pointer cell or a source, all reads being of the state before. -/
def Obligations.AliasedOperandsReadOldContent : Prop :=
  ∀ (b : BitVec 10) (c : BitVec 16) (s t : State) (p q : Word),
    p = s.mem.read b.toNat → q = s.mem.read c.toNat → t.faultCause = .none →
    (exec (.loadMem b c) s = .next t → c.toNat = b.toNat → t.mem.read b.toNat = s.mem.read p.toNat) ∧
    (exec (.loadMem b c) s = .next t → p.toNat = c.toNat → ∀ a, t.mem.read a = s.mem.read a) ∧
    (exec (.loadMem b c) s = .next t → p.toNat = b.toNat → (t.mem.read c.toNat).toNat = b.toNat) ∧
    (exec (.storeMem b c) s = .next t → p.toNat = b.toNat → t.mem.read b.toNat = q) ∧
    (exec (.storeMem b c) s = .next t → p.toNat = c.toNat → ∀ a, t.mem.read a = s.mem.read a) ∧
    (exec (.storeMem b c) s = .next t → c.toNat = b.toNat → t.mem.read p.toNat = p) ∧
    (exec (.bitreverse b c) s = .next t → p = q → t.mem.read p.toNat = bitrev32 (s.mem.read p.toNat)) ∧
    (exec (.bitreverse b c) s = .next t → q.toNat = b.toNat → t.mem.read b.toNat = bitrev32 (s.mem.read p.toNat)) ∧
    (exec (.bitreverse b c) s = .next t → q.toNat = c.toNat → t.mem.read c.toNat = bitrev32 (s.mem.read p.toNat))

/-- The table of R46 (`20_memory.md`) and the data accesses of `70_reset_and_hazards.md` section 5: a completed instruction
depends on the cells it reads (0, 2, 2 and 3 of them) and no other, and changes one cell; a faulting one changes none. -/
def Obligations.InstructionTouchesFewCells : Prop :=
  (∀ (i : Instr) (s t : State) (m : Memory), exec i s = .next t →
    firstOutside s.memSize (checkedIndices i s) = none →
    (∀ a ∈ cellsRead i s, m.read a = s.mem.read a) →
    ∃ u, exec i { s with mem := m } = .next u ∧ u = { t with mem := u.mem } ∧
      ∀ a, u.mem.read a = if a = destination i s then t.mem.read a else m.read a) ∧
  (∀ (i : Instr) (s t : State), exec i s = .next t →
    (∀ a, a ≠ destination i s → t.mem.read a = s.mem.read a) ∧
    (firstOutside s.memSize (checkedIndices i s) ≠ none → t.mem = s.mem)) ∧
  (∀ (i : Instr) (s : State), (cellsRead i s).length =
    match i.opcode with
    | .loadConst => 0
    | .loadMem => 2
    | .storeMem => 2
    | .bitreverse => 3)

/-! Faults (`60_exceptions.md`) -/

/-- R99: raising a fault writes the fault record, keeps `pc` and `Mem`, and leaves the core FAULTED. -/
def Obligations.RaisingWritesOnlyTheRecord : Prop :=
  ∀ s t : State, step s = .next t → t.faultCause ≠ .none →
    s.Raised t t.faultCause t.faultVal ∧ t.status = .faulted ∧ step t = .fault .faulted

/-- R100: at a fault, memory is that of the completed prefix, and the instruction at the fault had no effect. -/
def Obligations.FaultsArePrecise : Prop :=
  ∀ (s t : State) (k : Nat), core.run k s = .next t → s.faultCause = .none → t.faultCause ≠ .none →
    ∃ j u, k = j + 1 ∧ core.run j s = .next u ∧ u.faultCause = .none ∧ step u = .next t ∧
      t.mem = u.mem ∧ t.pc = u.pc ∧ t.faultPc = u.pc

/-- R101 and R102: FAULTED has no step, so the record is written once and kept; only reset leaves it, and reset clears the
record and memory. -/
def Obligations.FaultedUntilReset : Prop :=
  (∀ s t : State, step s = .next t → s.faultCause = .none) ∧
  (∀ (s t : State) (k : Nat), s.faultCause ≠ .none → core.run k s = .next t → t = s) ∧
  (∀ s : State, s.ProgFits → s.faultCause ≠ .none → ∀ k, core.run (k + 1) s = .fault .faulted) ∧
  (∀ s : State, s.applyReset.faultCause = .none ∧ s.applyReset.faultPc = 0 ∧ s.applyReset.faultVal = 0 ∧
    (∀ a, s.applyReset.mem.read a = 0) ∧ s.applyReset.status ≠ .faulted)

/-- R120: a FAULTED run has no result and no dump; its memory stays readable for diagnosis. -/
def Obligations.FaultedRunHasNoResult : Prop :=
  ∀ s : State, s.faultCause ≠ .none →
    s.result = none ∧ (∀ start stop, s.dump start stop = none) ∧
    (∀ i, i < s.memSize → s.readout i = some (s.mem.read i))

/-! The whole machine, reset and the run (`10_state.md`, `70_reset_and_hazards.md`) -/

/-- R17: `pc` stays within the program, so the counter never overflows its width. -/
def Obligations.PcNeverLeavesProgram : Prop :=
  (∀ prog memSize, (State.boot prog memSize).pc.toNat ≤ (State.boot prog memSize).prog.length) ∧
  (∀ s t : State, s.pc.toNat ≤ s.prog.length → step s = .next t →
    t.pc.toNat ≤ t.prog.length ∧
    (t.faultCause = .none → ∃ n, (n = 4 ∨ n = 5) ∧ s.pc.toNat + n ≤ s.prog.length ∧
      s.pc.toNat + n ≤ 2 ^ 32 - 1 ∧ t.pc.toNat = s.pc.toNat + n))

/-- The invariant of the machine is kept by every step from every state that has it: the program fits, `pc` stays within
it, memory stays canonical and inside `MEM_SIZE`, and the fault record is 0 or true of the instruction at `pc`. -/
def Obligations.StepKeepsMachineInvariant : Prop :=
  ∀ s t : State, s.Inv → step s = .next t → t.Inv

/-- The invariant of the machine holds at reset and at the start of every run. -/
def Obligations.ResetHasMachineInvariant : Prop :=
  State.reset.Inv ∧
  (∀ (prog : List Byte) (memSize : Nat), prog.length ≤ 2 ^ 32 - 1 → (State.boot prog memSize).Inv) ∧
  (∀ s : State, s.ProgFits → s.applyReset.Inv)

/-- R14: every run is finite. Each step faults or increases `pc` by 4 or 5, and at most `PROG_LEN / 4` instructions
complete. That a run has at most one step more, the faulting one, is the step count of R118
(`70_reset_and_hazards.md` section 5). -/
def Obligations.RunsAreFinite : Prop :=
  (∀ s t : State, step s = .next t →
    t.status = .faulted ∨ t.pc.toNat = s.pc.toNat + 4 ∨ t.pc.toNat = s.pc.toNat + 5) ∧
  (∀ (prog : List Byte) (memSize k : Nat) (t : State), core.run k (State.boot prog memSize) = .next t →
    k ≤ prog.length / 4 + 1 ∧ (t.faultCause = .none → k ≤ prog.length / 4))

/-- R44: the program is immutable during a run and stores are never seen by fetch. -/
def Obligations.ProgramIsImmutable : Prop :=
  (∀ (s t : State) (k : Nat), core.run k s = .next t → t.prog = s.prog ∧ t.memSize = s.memSize) ∧
  (∀ (s : State) (m : Memory), fetch { s with mem := m } = fetch s)

/-- R29 and R111: the value of every piece of state after reset, in any status; the inputs of the run stay. -/
def Obligations.ResetZeroesEverything : Prop :=
  (∀ s : State, s.applyReset.pc = 0 ∧ (∀ a, s.applyReset.mem.read a = 0) ∧
    s.applyReset.faultCause.code = 0 ∧ s.applyReset.faultPc = 0 ∧ s.applyReset.faultVal = 0 ∧
    s.applyReset.prog = s.prog ∧ s.applyReset.memSize = s.memSize ∧
    s.applyReset.status = if 0 < s.prog.length then .running else .halted) ∧
  State.reset.applyReset = State.reset ∧ State.reset.memSize = 1024

/-- R115: the empty program is HALTED at once, with memory all zero. -/
def Obligations.EmptyProgramHaltsAtOnce : Prop :=
  ∀ memSize, (State.boot [] memSize).status = .halted ∧ step (State.boot [] memSize) = .fault .halted ∧
    ∃ m, (State.boot [] memSize).result = some m ∧ ∀ a, m.read a = 0

/-- R116: a run ends where the core has no step, at `pc = PROG_LEN` with the final memory as its result or at a fault with
no result; and every run ends. -/
def Obligations.RunEndsHaltedOrFaulted : Prop :=
  (∀ s : State, s.ProgFits → s.pc.toNat ≤ s.prog.length →
    ((∀ t, step s ≠ .next t) ↔ (s.faultCause = .none ∧ s.pc.toNat = s.prog.length) ∨ s.faultCause ≠ .none) ∧
    (s.faultCause = .none → s.pc.toNat = s.prog.length → s.status = .halted ∧ s.result = some s.mem) ∧
    (s.faultCause ≠ .none → s.status = .faulted ∧ s.result = none)) ∧
  (∀ (prog : List Byte) (memSize : Nat),
    ∃ k t, core.run k (State.boot prog memSize) = .next t ∧ ∀ u, step t ≠ .next u)

/-- `10_state.md` section 9 and `70_reset_and_hazards.md` section 6: the read-out and the dump. That there is no dump for a
range outside memory or reversed is the model's choice (log entry 13). -/
def Obligations.ReadoutAndDump : Prop :=
  (∀ (s : State) (i : Nat), s.readout i =
    if (s.faultCause ≠ .none ∨ s.prog.length ≤ s.pc.toNat) ∧ i < s.memSize then some (s.mem.read i) else none) ∧
  (∀ (s : State) (start stop : Nat), s.status = .halted → start ≤ stop → stop < s.memSize →
    ∃ d, s.dump start stop = some d ∧ d.length = stop + 1 - start ∧
      ∀ k, k < d.length → d[k]? = some (start + k, s.mem.read (start + k))) ∧
  (∀ (s : State) (start stop : Nat), stop < start ∨ s.memSize ≤ stop → s.dump start stop = none)

/-- The canonical form of memory (log entry 6): two canonical memories that read alike everywhere are equal data. -/
def Obligations.CanonicalMemoriesAreEqual : Prop :=
  ∀ m n : Memory, m.wf → n.wf → (∀ a, m.read a = n.read a) → m = n
end

