-- ==== Sys2Proof/Laws/Decode.lean ====
section
/-! SUPPORT. The opcode table's rows by name, and what the decoder answers on each look-ahead opcode. -/

namespace Sys2Proof

@[simp] theorem ilen_loadConst : Opcode.loadConst.ilen = 5 := rfl
@[simp] theorem ilen_loadMem : Opcode.loadMem.ilen = 4 := rfl
@[simp] theorem ilen_storeMem : Opcode.storeMem.ilen = 4 := rfl
@[simp] theorem ilen_bitreverse : Opcode.bitreverse.ilen = 4 := rfl

/-- A kind is found at its own opcode value, and only there. -/
theorem opcodeOf?_eq_some_iff {a : BitVec 6} {op : Opcode} : opcodeOf? a = some op ↔ a = op.row.value := by
  revert a
  cases op <;> decide

@[simp] theorem opcodeOf?_value (op : Opcode) : opcodeOf? op.row.value = some op :=
  opcodeOf?_eq_some_iff.mpr rfl

theorem decode_cons (b0 : Byte) (rest : List Byte) :
    decode (b0 :: rest) =
      match opcodeOf? (lookahead b0) with
      | none => .error (.unknownOpcode (lookahead b0))
      | some .loadConst => decodeF40 .loadConst b0 rest
      | some .loadMem => decodeF32 .loadMem b0 rest
      | some .storeMem => decodeF32 .storeMem b0 rest
      | some .bitreverse => decodeF32 .bitreverse b0 rest := rfl

/-- Format `F40` needs four bytes after the first. -/
theorem decodeF40_short {mk : BitVec 10 → BitVec 24 → Instr} {b0 : Byte} {rest : List Byte} (h : rest.length < 4) :
    decodeF40 mk b0 rest = .error (.truncated (lookahead b0)) := by
  match rest, h with
  | [], _ => rfl
  | [_], _ => rfl
  | [_, _], _ => rfl
  | [_, _, _], _ => rfl
  | _ :: _ :: _ :: _ :: _, h => simp at h; omega

/-- Format `F32` needs three bytes after the first. -/
theorem decodeF32_short {mk : BitVec 10 → BitVec 16 → Instr} {b0 : Byte} {rest : List Byte} (h : rest.length < 3) :
    decodeF32 mk b0 rest = .error (.truncated (lookahead b0)) := by
  match rest, h with
  | [], _ => rfl
  | [_], _ => rfl
  | [_, _], _ => rfl
  | _ :: _ :: _ :: _, h => simp at h; omega

end Sys2Proof
end

