-- ==== Sys2Proof/Laws/State.lean ====
section
/-! SUPPORT. One lemma per field per update of State, so that no proof unfolds a record update. -/

namespace Sys2Proof.Machine

section writeCell
variable (s : State) (a : Nat) (v : Word)
@[simp] theorem State.writeCell_prog : (s.writeCell a v).prog = s.prog := rfl
@[simp] theorem State.writeCell_memSize : (s.writeCell a v).memSize = s.memSize := rfl
@[simp] theorem State.writeCell_pc : (s.writeCell a v).pc = s.pc := rfl
@[simp] theorem State.writeCell_mem : (s.writeCell a v).mem = s.mem.write a v := rfl
@[simp] theorem State.writeCell_faultCause : (s.writeCell a v).faultCause = s.faultCause := rfl
@[simp] theorem State.writeCell_faultPc : (s.writeCell a v).faultPc = s.faultPc := rfl
@[simp] theorem State.writeCell_faultVal : (s.writeCell a v).faultVal = s.faultVal := rfl
end writeCell

section advance
variable (s : State) (n : Nat)
@[simp] theorem State.advance_prog : (s.advance n).prog = s.prog := rfl
@[simp] theorem State.advance_memSize : (s.advance n).memSize = s.memSize := rfl
@[simp] theorem State.advance_pc : (s.advance n).pc = s.pc + BitVec.ofNat 32 n := rfl
@[simp] theorem State.advance_mem : (s.advance n).mem = s.mem := rfl
@[simp] theorem State.advance_faultCause : (s.advance n).faultCause = s.faultCause := rfl
@[simp] theorem State.advance_faultPc : (s.advance n).faultPc = s.faultPc := rfl
@[simp] theorem State.advance_faultVal : (s.advance n).faultVal = s.faultVal := rfl
end advance

section raise
variable (s : State) (cause : FaultCause) (info : Word)
@[simp] theorem State.raise_prog : (s.raise cause info).prog = s.prog := rfl
@[simp] theorem State.raise_memSize : (s.raise cause info).memSize = s.memSize := rfl
@[simp] theorem State.raise_pc : (s.raise cause info).pc = s.pc := rfl
@[simp] theorem State.raise_mem : (s.raise cause info).mem = s.mem := rfl
@[simp] theorem State.raise_faultCause : (s.raise cause info).faultCause = cause := rfl
@[simp] theorem State.raise_faultPc : (s.raise cause info).faultPc = s.pc := rfl
@[simp] theorem State.raise_faultVal : (s.raise cause info).faultVal = info := rfl
end raise

section applyReset
variable (s : State)
@[simp] theorem State.applyReset_prog : s.applyReset.prog = s.prog := rfl
@[simp] theorem State.applyReset_memSize : s.applyReset.memSize = s.memSize := rfl
@[simp] theorem State.applyReset_pc : s.applyReset.pc = 0 := rfl
@[simp] theorem State.applyReset_mem : s.applyReset.mem = [] := rfl
@[simp] theorem State.applyReset_faultCause : s.applyReset.faultCause = .none := rfl
@[simp] theorem State.applyReset_faultPc : s.applyReset.faultPc = 0 := rfl
@[simp] theorem State.applyReset_faultVal : s.applyReset.faultVal = 0 := rfl
end applyReset

section boot
variable (prog : List Byte) (memSize : Nat)
@[simp] theorem State.boot_prog : (State.boot prog memSize).prog = prog := rfl
@[simp] theorem State.boot_memSize : (State.boot prog memSize).memSize = memSize := rfl
@[simp] theorem State.boot_pc : (State.boot prog memSize).pc = 0 := rfl
@[simp] theorem State.boot_mem : (State.boot prog memSize).mem = [] := rfl
@[simp] theorem State.boot_faultCause : (State.boot prog memSize).faultCause = .none := rfl
@[simp] theorem State.boot_faultPc : (State.boot prog memSize).faultPc = 0 := rfl
@[simp] theorem State.boot_faultVal : (State.boot prog memSize).faultVal = 0 := rfl
end boot

section placeAtPc
variable (s : State) (bytes : List Byte)
@[simp] theorem State.placeAtPc_prog : (s.placeAtPc bytes).prog = overwriteAt s.prog s.pc.toNat bytes := rfl
@[simp] theorem State.placeAtPc_memSize : (s.placeAtPc bytes).memSize = s.memSize := rfl
@[simp] theorem State.placeAtPc_pc : (s.placeAtPc bytes).pc = s.pc := rfl
@[simp] theorem State.placeAtPc_mem : (s.placeAtPc bytes).mem = s.mem := rfl
@[simp] theorem State.placeAtPc_faultCause : (s.placeAtPc bytes).faultCause = .none := rfl
@[simp] theorem State.placeAtPc_faultPc : (s.placeAtPc bytes).faultPc = 0 := rfl
@[simp] theorem State.placeAtPc_faultVal : (s.placeAtPc bytes).faultVal = 0 := rfl
end placeAtPc

end Sys2Proof.Machine
end

