-- ==== Sys2Proof/Laws/Memory.lean ====
section
/-! SUPPORT. The memory laws: a read after a write, and that every memory operation keeps the canonical form and the
bound on its indices. -/

namespace Sys2Proof.Machine

@[simp] theorem Memory.read_nil (a : Nat) : Memory.read [] a = 0 := rfl

@[simp] theorem Memory.read_cons (cell : Nat × Word) (m : Memory) (a : Nat) :
    Memory.read (cell :: m) a = if cell.1 = a then cell.2 else Memory.read m a := rfl

/-- A removed cell reads 0, every other cell as before. -/
theorem Memory.read_remove (m : Memory) (a x : Nat) :
    (m.remove a).read x = if x = a then 0 else m.read x := by
  induction m with
  | nil => simp [Memory.remove]
  | cons cell m ih =>
    simp only [Memory.remove, List.filter_cons] at ih ⊢
    by_cases hc : cell.1 = a
    · rw [if_neg (by simpa using hc), ih, Memory.read_cons, hc]
      by_cases hx : x = a
      · simp [hx]
      · simp [hx, Ne.symm hx]
    · rw [if_pos (by simpa using hc), Memory.read_cons, Memory.read_cons, ih]
      by_cases hx : x = a
      · simp [hx, hc]
      · simp [hx]

theorem Memory.remove_key_ne {m : Memory} {a : Nat} {c : Nat × Word} (h : c ∈ m.remove a) : c.1 ≠ a := by
  simpa using (List.mem_filter.mp h).2

theorem Memory.mem_of_mem_remove {m : Memory} {a : Nat} {c : Nat × Word} (h : c ∈ m.remove a) : c ∈ m :=
  (List.mem_filter.mp h).1

/-- Placing a cell that the memory does not list sets that cell and no other. -/
theorem Memory.read_place (m : Memory) (a : Nat) (v : Word) (h : ∀ c ∈ m, c.1 ≠ a) (x : Nat) :
    (m.place a v).read x = if x = a then v else m.read x := by
  induction m with
  | nil => simp [Memory.place, eq_comm]
  | cons cell m ih =>
    have hc : cell.1 ≠ a := h cell (by simp)
    have ih := ih fun c hm => h c (List.mem_cons_of_mem _ hm)
    simp only [Memory.place]
    split
    · simp only [Memory.read_cons, eq_comm]
    · rw [Memory.read_cons, Memory.read_cons, ih]
      by_cases hx : x = a
      · simp [hx, hc]
      · simp [hx]

/-- A read after a write: the written cell gives the written word, every other cell what it gave before (R8, R41). -/
@[simp] theorem Memory.read_write (m : Memory) (a : Nat) (v : Word) (x : Nat) :
    (m.write a v).read x = if x = a then v else m.read x := by
  unfold Memory.write
  split
  · next hv => rw [Memory.read_remove, hv]
  · rw [Memory.read_place _ _ _ (fun c => Memory.remove_key_ne), Memory.read_remove]
    split <;> rfl

theorem Memory.mem_place {m : Memory} {a : Nat} {v : Word} {c : Nat × Word} (h : c ∈ m.place a v) :
    c = (a, v) ∨ c ∈ m := by
  induction m with
  | nil => simpa [Memory.place] using h
  | cons cell m ih =>
    simp only [Memory.place] at h
    split at h
    · simpa using h
    · rcases List.mem_cons.mp h with h | h
      · exact .inr (by simp [h])
      · exact (ih h).imp id (List.mem_cons_of_mem _)

/-- A write lists at most the written cell beside the cells listed before. -/
theorem Memory.mem_write {m : Memory} {a : Nat} {v : Word} {c : Nat × Word} (h : c ∈ m.write a v) :
    c = (a, v) ∨ c ∈ m := by
  unfold Memory.write at h
  split at h
  · exact .inr (Memory.mem_of_mem_remove h)
  · exact (Memory.mem_place h).imp id Memory.mem_of_mem_remove

theorem Memory.remove_wf {m : Memory} (h : m.wf) (a : Nat) : (m.remove a).wf :=
  ⟨h.1.filter _, fun c hc => h.2 c (Memory.mem_of_mem_remove hc)⟩

theorem Memory.place_wf {m : Memory} (h : m.wf) {a : Nat} {v : Word} (hv : v ≠ 0) (ha : ∀ c ∈ m, c.1 ≠ a) :
    (m.place a v).wf := by
  refine ⟨?_, fun c hc => ?_⟩
  · have hp := h.1
    clear h hv
    induction m with
    | nil => simp [Memory.place]
    | cons cell m ih =>
      have hne : cell.1 ≠ a := ha cell (by simp)
      obtain ⟨hlt, hrest⟩ := List.pairwise_cons.mp hp
      simp only [Memory.place]
      split
      · next hac =>
        refine List.pairwise_cons.mpr ⟨fun d hd => ?_, hp⟩
        rcases List.mem_cons.mp hd with rfl | hd
        · exact hac
        · exact Nat.lt_trans hac (hlt d hd)
      · refine List.pairwise_cons.mpr ⟨fun d hd => ?_, ih (fun c hm => ha c (List.mem_cons_of_mem _ hm)) hrest⟩
        rcases Memory.mem_place hd with rfl | hd
        · show cell.1 < a
          omega
        · exact hlt d hd
  · rcases Memory.mem_place hc with rfl | hc
    · exact hv
    · exact h.2 c hc

/-- A write keeps the canonical form. -/
theorem Memory.write_wf {m : Memory} (h : m.wf) (a : Nat) (v : Word) : (m.write a v).wf := by
  unfold Memory.write
  split
  · exact Memory.remove_wf h a
  · next hv => exact Memory.place_wf (Memory.remove_wf h a) hv fun c => Memory.remove_key_ne

/-- A write below a bound keeps every listed index below it. -/
theorem Memory.write_inside {m : Memory} {n a : Nat} (h : ∀ c ∈ m, c.1 < n) (ha : a < n) (v : Word) :
    ∀ c ∈ m.write a v, c.1 < n := by
  intro c hc
  rcases Memory.mem_write hc with rfl | hc
  · exact ha
  · exact h c hc

theorem reset_mem_wf : State.reset.mem.wf := by decide

end Sys2Proof.Machine
end

