-- ==== Sys2Proof/Laws/Ops.lean ====
section
/-! SUPPORT. What each shared operation can do, said once: the bounds check, the operand forms, the end of an
instruction, the status, the fetch and the step. -/

namespace Sys2Proof.Machine

theorem chk_ok_iff {s : State} {i j : Word} : chk s i = .ok j ↔ j = i ∧ i.toNat < s.memSize := by
  unfold chk
  split <;> simp <;> grind

theorem chk_error_iff {s : State} {i j : Word} : chk s i = .error j ↔ j = i ∧ s.memSize ≤ i.toNat := by
  unfold chk
  split <;> simp <;> grind

theorem chk_of_lt {s : State} {i : Word} (h : i.toNat < s.memSize) : chk s i = .ok i :=
  chk_ok_iff.mpr ⟨rfl, h⟩

theorem chk_of_le {s : State} {i : Word} (h : s.memSize ≤ i.toNat) : chk s i = .error i :=
  chk_error_iff.mpr ⟨rfl, h⟩

/-- A field of at most 32 bits keeps its number when it is zero-extended to an index. -/
theorem toNat_setWidth_field {w : Nat} (field : BitVec w) (hw : w ≤ 32) :
    (field.setWidth 32).toNat = field.toNat := by
  rw [BitVec.toNat_setWidth, Nat.mod_eq_of_lt]
  exact Nat.lt_of_lt_of_le field.isLt (Nat.pow_le_pow_right (by decide) hw)

theorem direct_of_lt {w : Nat} {s : State} {field : BitVec w} (hw : w ≤ 32) (h : field.toNat < s.memSize) :
    direct s field = .ok (field.setWidth 32) :=
  chk_of_lt (by rwa [toNat_setWidth_field field hw])

theorem direct_of_le {w : Nat} {s : State} {field : BitVec w} (hw : w ≤ 32) (h : s.memSize ≤ field.toNat) :
    direct s field = .error (field.setWidth 32) :=
  chk_of_le (by rwa [toNat_setWidth_field field hw])

/-- With the pointer cell in memory, the indirect form checks what the cell holds. -/
theorem indirect_of_lt {w : Nat} {s : State} {field : BitVec w} (hw : w ≤ 32) (h : field.toNat < s.memSize) :
    indirect s field = chk s (s.mem.read field.toNat) := by
  simp [indirect, direct_of_lt hw h, State.readCell, toNat_setWidth_field field hw]

theorem indirect_of_le {w : Nat} {s : State} {field : BitVec w} (hw : w ≤ 32) (h : s.memSize ≤ field.toNat) :
    indirect s field = .error (field.setWidth 32) := by
  simp [indirect, direct_of_le hw h]

/-- An effect that checks its destination and yields the word of the second computation. -/
theorem finish_error (n : Nat) (s : State) (i : Word) :
    finish n s (.error i) = .next (s.raise .outOfBoundsAccess i) := rfl

theorem finish_ok (n : Nat) (s : State) (dst v : Word) :
    finish n s (.ok (dst, v)) = .next ((s.writeCell dst.toNat v).advance n) := rfl

/-- Everything the end of an instruction can do: it always answers a next state, which either records an out-of-bounds
index or has one cell written and `pc` advanced. -/
theorem finish_cases (n : Nat) (s : State) (effect : Except Word (Word × Word)) :
    (∃ i, effect = .error i ∧ finish n s effect = .next (s.raise .outOfBoundsAccess i)) ∨
    (∃ dst v, effect = .ok (dst, v) ∧ finish n s effect = .next ((s.writeCell dst.toNat v).advance n)) := by
  cases effect with
  | error i => exact .inl ⟨i, rfl, rfl⟩
  | ok r => exact .inr ⟨r.1, r.2, rfl, rfl⟩

theorem status_faulted_iff {s : State} : s.status = .faulted ↔ s.faultCause ≠ .none := by
  unfold State.status
  split <;> simp_all
  split <;> simp

theorem status_halted_iff {s : State} :
    s.status = .halted ↔ s.faultCause = .none ∧ s.prog.length ≤ s.pc.toNat := by
  unfold State.status
  split
  · simp_all
  · split <;> simp_all

theorem status_running_iff {s : State} :
    s.status = .running ↔ s.faultCause = .none ∧ s.pc.toNat < s.prog.length := by
  unfold State.status
  split
  · simp_all
  · split <;> simp_all

theorem step_of_tooLong {s : State} (h : Config.maxProgLen < s.prog.length) :
    step s = .refused .programTooLong := by
  simp [step, h]

theorem step_of_faulted {s : State} (hlen : s.prog.length ≤ Config.maxProgLen) (h : s.status = .faulted) :
    step s = .fault .faulted := by
  simp [step, Nat.not_lt.mpr hlen, h]

theorem step_of_halted {s : State} (hlen : s.prog.length ≤ Config.maxProgLen) (h : s.status = .halted) :
    step s = .fault .halted := by
  simp [step, Nat.not_lt.mpr hlen, h]

/-- The step of a RUNNING core is the fetch followed by the fault or the meaning it leads to. -/
theorem step_of_running {s : State} (hlen : s.prog.length ≤ Config.maxProgLen) (h : s.status = .running) :
    step s = match fetch s with
      | .error e => raiseDecodeError e s
      | .ok i => exec i s := by
  cases hf : fetch s <;> simp [step, Nat.not_lt.mpr hlen, h, hf]

/-- A next state comes only from a RUNNING core whose program fits. -/
theorem running_of_step_next {s t : State} (h : step s = .next t) :
    s.prog.length ≤ Config.maxProgLen ∧ s.status = .running := by
  by_cases hl : Config.maxProgLen < s.prog.length
  · simp [step_of_tooLong hl] at h
  · have hl := Nat.not_lt.mp hl
    refine ⟨hl, ?_⟩
    cases hs : s.status with
    | running => rfl
    | halted => simp [step_of_halted hl hs] at h
    | faulted => simp [step_of_faulted hl hs] at h

end Sys2Proof.Machine
end

