-- ==== Sys2Proof/Laws/PerInstr.lean ====
section
/-! SUPPORT. Statements for all instructions, one lemma per constructor (LAWS.json names the families).
Fields: an instruction's operands always fit their fields, and its source form gives it back (`30_encoding.md` rule
R56: within a legal opcode every value of B and of C is valid). -/

namespace Sys2Proof.Laws.Fields

/-- An instruction is well formed, and the range check of its source form gives the instruction back. -/
def Statement (i : Instr) : Prop := i.wellFormed = true ∧ i.toSource.toInstr? = some i

theorem loadConst (b : BitVec 10) (c : BitVec 24) : Statement (.loadConst b c) := by
  have hb := b.isLt
  have hc := c.isLt
  simp_all [Statement, Instr.wellFormed, Source.wellFormed, Instr.toSource, Source.toInstr?, Operand.fits,
    Instr.opcode, Instr.fieldB, Instr.fieldC, Opcode.cWidth, Config.bW, Config.cW40]

theorem loadMem (b : BitVec 10) (c : BitVec 16) : Statement (.loadMem b c) := by
  have hb := b.isLt
  have hc := c.isLt
  simp_all [Statement, Instr.wellFormed, Source.wellFormed, Instr.toSource, Source.toInstr?, Operand.fits,
    Instr.opcode, Instr.fieldB, Instr.fieldC, Opcode.cWidth, Config.bW, Config.cW32]

theorem storeMem (b : BitVec 10) (c : BitVec 16) : Statement (.storeMem b c) := by
  have hb := b.isLt
  have hc := c.isLt
  simp_all [Statement, Instr.wellFormed, Source.wellFormed, Instr.toSource, Source.toInstr?, Operand.fits,
    Instr.opcode, Instr.fieldB, Instr.fieldC, Opcode.cWidth, Config.bW, Config.cW32]

theorem bitreverse (b : BitVec 10) (c : BitVec 16) : Statement (.bitreverse b c) := by
  have hb := b.isLt
  have hc := c.isLt
  simp_all [Statement, Instr.wellFormed, Source.wellFormed, Instr.toSource, Source.toInstr?, Operand.fits,
    Instr.opcode, Instr.fieldB, Instr.fieldC, Opcode.cWidth, Config.bW, Config.cW32]

end Sys2Proof.Laws.Fields
end

