-- ==== Sys2Proof/Tests/Slice0.lean ====
section
/-! SUPPORT. The model's own tests. Expected results are from `spec/95_test_vectors.md` (cited by its row names) or worked
out by hand from the rules; each is about one step or one word. The witnesses at the end show, for each statement and each
of its clauses, a concrete state and operands that meet its hypotheses. -/

open Sys2Proof Sys2Proof.Machine

namespace Sys2Proof.Tests

/-! Well-formedness: each check refuses an ill-formed term (R64). -/

theorem test_wf_accepts_largest : (Source.mk .loadConst (.numeral 1023) (.numeral 16777215)).wellFormed = true := by decide
theorem test_wf_refuses_b_too_large : (Source.mk .loadConst (.numeral 1024) (.numeral 0)).wellFormed = false := by decide
theorem test_wf_refuses_c_too_large_f40 :
    (Source.mk .loadConst (.numeral 0) (.numeral 16777216)).wellFormed = false := by decide
theorem test_wf_refuses_c_too_large_f32 :
    ([Opcode.loadMem, .storeMem, .bitreverse].all fun op =>
      !(Source.mk op (.numeral 0) (.numeral 65536)).wellFormed) = true := by decide
theorem test_wf_refuses_negative_b : (Source.mk .storeMem (.negative 1) (.numeral 0)).wellFormed = false := by decide
theorem test_wf_refuses_negative_c : (Source.mk .loadConst (.numeral 0) (.negative 1)).wellFormed = false := by decide

/-! Decoding: words written out bit by bit from R48, R49 and R53. -/

/-- 111010 1010101010 010101010101010101010101 (row E6). -/
theorem test_decode_loadConst :
    decode [0b11101010, 0b10101010, 0b01010101, 0b01010101, 0b01010101] = .ok (.loadConst 0x2AA 0x555555, []) := rfl
/-- 111111 0101010101 1010101010101010 (row E12). -/
theorem test_decode_loadMem :
    decode [0b11111101, 0b01010101, 0b10101010, 0b10101010] = .ok (.loadMem 0x155 0xAAAA, []) := rfl
/-- 011111 0000000010 0000000000000011 (row E14), with a byte after it. -/
theorem test_decode_storeMem :
    decode [0b01111100, 0b00000010, 0b00000000, 0b00000011, 0xFF] = .ok (.storeMem 2 3, [0xFF]) := rfl
/-- 001000 1111111111 1111111111111111 (row E19). -/
theorem test_decode_bitreverse :
    decode [0b00100011, 0b11111111, 0b11111111, 0b11111111] = .ok (.bitreverse 1023 65535, []) := rfl
/-- The first bytes beside each legal range (section 2.2). -/
theorem test_decode_refuses_neighbours :
    ([0x00, 0x1F, 0x24, 0x5C, 0x7B, 0x80, 0xE7, 0xEC, 0xFB].all fun b0 =>
      opcodeOf? (lookahead (BitVec.ofNat 8 b0)) = none) = true := by decide
theorem test_encode_loadConst : encode (.loadConst 512 1193046) = [0xEA, 0x00, 0x12, 0x34, 0x56] := by decide
theorem test_encode_storeMem : encode (.storeMem 256 256) = [0x7D, 0x00, 0x01, 0x00] := by decide
theorem test_table_word_loadConst : decodeTableWord 40 0xEAAA555555 = some (.loadConst 0x2AA 0x555555) := by decide
theorem test_table_word_bitreverse : decodeTableWord 32 0x20050006 = some (.bitreverse 5 6) := by decide
theorem test_table_word_short : decodeTableWord 32 0xE8000000 = some (.loadConst 0 0) := by decide
theorem test_table_word_unknown : decodeTableWord 32 0x00000000 = none := by decide

/-! One step. -/

/-- The reset state with a program and a memory. -/
def withProg (prog : List Byte) (mem : Memory) : State := { State.reset with prog := prog, mem := mem }

/-- Scenario S1: `Mem[0] = 42`, `pc = 5`, HALTED. -/
theorem test_loadConst_S1 :
    (nextState? (step (withProg [0xE8, 0x00, 0x00, 0x00, 0x2A] []))).map
      (fun t => (t.mem, t.pc, t.status)) = some ([(0, 42)], 5, .halted) := by decide
/-- Row LC4: `MEM_SIZE = 4` and B = 4. -/
theorem test_loadConst_LC4 :
    (nextState? (step { withProg [0xE8, 0x04, 0x00, 0x00, 0x01] [] with memSize := 4 })).map
      (fun t => (t.mem, t.faultCause, t.faultPc, t.faultVal)) = some ([], .outOfBoundsAccess, 0, 4) := by decide
/-- The last step of row LM2: C = B, the pointer cell is overwritten with the word it pointed to. -/
theorem test_loadMem_LM2 :
    (nextState? (step (withProg [0xFC, 0x00, 0x00, 0x00] [(0, 2), (2, 20)]))).map
      (fun t => (t.mem, t.pc)) = some ([(0, 20), (2, 20)], 4) := by decide
/-- The last step of row S4: the pointer 1024 faults, it does not wrap. -/
theorem test_loadMem_S4 :
    (nextState? (step (withProg [0xFC, 0x01, 0x00, 0x02] [(1, 1024)]))).map
      (fun t => (t.mem, t.pc, t.faultCause, t.faultVal)) = some ([(1, 1024)], 0, .outOfBoundsAccess, 1024) := by decide
/-- The last step of row SM1. -/
theorem test_storeMem_SM1 :
    (nextState? (step (withProg [0x7C, 0x00, 0x00, 0x01] [(0, 10), (1, 0xABCDEF)]))).map
      (fun t => (t.mem, t.pc)) = some ([(0, 10), (1, 0xABCDEF), (10, 0xABCDEF)], 4) := by decide
/-- The last step of row SM7: the pointer is not truncated to 10 bits. -/
theorem test_storeMem_SM7 :
    (nextState? (step (withProg [0x7C, 0x00, 0x00, 0x00] [(0, 0xFFFFFF)]))).map
      (fun t => (t.mem, t.faultCause, t.faultVal)) = some ([(0, 0xFFFFFF)], .outOfBoundsAccess, 0xFFFFFF) := by decide
/-- The last step of row BR3: q = B, the result overwrites the source pointer cell. -/
theorem test_bitreverse_BR3 :
    (nextState? (step (withProg [0x20, 0x00, 0x00, 0x01] [(0, 3), (3, 6)]))).map
      (fun t => (t.mem, t.pc)) = some ([(0, 0x60000000), (3, 6)], 4) := by decide +kernel
/-- The last step of row BR8: p and q are both outside memory, and p is recorded. -/
theorem test_bitreverse_BR8 :
    (nextState? (step (withProg [0x20, 0x00, 0x00, 0x01] [(0, 0xFFFFFF), (1, 2000)]))).map
      (fun t => (t.faultCause, t.faultVal)) = some (.outOfBoundsAccess, 0xFFFFFF) := by decide +kernel
/-- Section 2.3. -/
theorem test_bitrev32_samples :
    bitrev32 0x00000001 = 0x80000000 ∧ bitrev32 0x00123456 = 0x6A2C4800 ∧ bitrev32 0x00018000 = 0x00018000 := by
  decide +kernel
/-- Row F3: an unknown opcode in the last byte is not a truncated instruction. -/
theorem test_unknown_opcode_F3 :
    (nextState? (step (withProg [0x5C] []))).map (fun t => (t.faultCause, t.faultPc, t.faultVal, t.pc)) =
      some (.unknownOpcode, 0, 23, 0) := by decide
/-- Row F9: four bytes of a five-byte instruction. -/
theorem test_truncated_F9 :
    (nextState? (step (withProg [0xE8, 0x00, 0x00, 0x00] []))).map
      (fun t => (t.faultCause.code, t.faultPc, t.faultVal, t.mem)) = some (2, 0, 58, []) := by decide
/-- Row F1 and log entry 4: the reset state has the empty program and is HALTED. -/
theorem test_reset_halted : State.reset.status = .halted ∧ State.reset.statusPort = ⟨1, 0, 0, 0⟩ := by decide
/-- Writing 0 unlists the cell (log entry 6). -/
theorem test_write_zero_unlists : Memory.write [(3, 1), (5, 2)] 3 0 = [(5, 2)] := by decide
theorem test_placed_word_runs :
    (nextState? (step (State.reset.withFetchWord 32 0xFC000002))).map (fun t => (t.mem, t.pc, t.status)) =
      some ([], 4, .halted) := by decide
/-- Program P2's dump request, here of its end state. -/
theorem test_dump_P2 :
    (withProg [] [(10, 11259375), (11, 4155757824), (12, 4155757824)]).dump 10 12 =
      some [(10, 11259375), (11, 4155757824), (12, 4155757824)] := by decide

/-! The assembler (section 2.1 and scenario S-OVF). -/

theorem test_asm_accepts_S_OVF : Asm.parseInstr "LOAD_CONST 1023,0".toList = .ok (.loadConst 1023 0) := by rfl
theorem test_asm_rejects_S_OVF : Asm.parseInstr "LOAD_CONST 1024,0".toList = .error .fieldOverflow := by rfl
theorem test_asm_rejects_negative : Asm.parseInstr "LOAD_CONST 0,-1".toList = .error .fieldOverflow := by rfl
theorem test_asm_rejects_mnemonic : Asm.parseInstr "ADD 1,2".toList = .error .unknownMnemonic := by rfl
theorem test_asm_rejects_arity : Asm.parseInstr "LOAD_MEM 1,2,3".toList = .error .wrongOperandArity := by rfl
theorem test_asm_rejects_hex : Asm.parseInstr "LOAD_CONST 0,0x10".toList = .error .wrongOperandArity := by rfl
theorem test_asm_skips_comment : Asm.isSkipped "  ; comment".toList = true ∧ Asm.isSkipped [] = true := by decide
theorem test_asm_log : Asm.assemble ["LOAD_MEM 0,2".toList] = .ok ⟨[0xFC, 0x00, 0x00, 0x02], [⟨63, 0, 2⟩]⟩ := by rfl

/-! Witnesses. -/

/-- An outcome with a next state is that next state. -/
theorem eq_next_of_nextState? {o : Host.Outcome State Fault Refusal} {t : State} (h : nextState? o = some t) :
    o = .next t := by
  cases o with
  | next s => exact congrArg _ (Option.some.inj h)
  | fault r => exact nomatch h
  | refused r => exact nomatch h

/-- A program of four bytes, `LOAD_MEM 0,2`, over a memory whose cell 0 points to cell 5. -/
def loadState : State := withProg [0xFC, 0x00, 0x00, 0x02] [(0, 5), (5, 7)]
/-- The state after its step. -/
def loadState' : State := { loadState with mem := [(0, 5), (2, 7), (5, 7)], pc := 4 }
/-- The same program over a pointer outside memory, -/
def boundsState : State := withProg [0xFC, 0x00, 0x00, 0x02] [(0, 1024)]
/-- and the state after its step. -/
def boundsState' : State := { boundsState with faultCause := .outOfBoundsAccess, faultVal := 1024 }
/-- A program whose first opcode is unknown. -/
def unknownState : State := withProg [0x5C] []
/-- A program whose first instruction is truncated. -/
def shortState : State := withProg [0xE8, 0x00, 0x00, 0x00] []
/-- A small memory, outside which cells can be named directly. -/
def smallState : State := { State.reset with memSize := 4, mem := [(0, 2), (1, 9), (2, 3)] }

theorem loadState_step : step loadState = .next loadState' := eq_next_of_nextState? (by decide)
theorem boundsState_step : step boundsState = .next boundsState' := eq_next_of_nextState? (by decide)
theorem loadState_run : core.run 1 loadState = .next loadState' := eq_next_of_nextState? (by decide)
theorem boundsState_run : core.run 1 boundsState = .next boundsState' := eq_next_of_nextState? (by decide)

theorem witness_EncodingLaws_first_byte : encode (.storeMem 2 3) = 0x7C :: [0x02, 0x00, 0x03] := by decide
theorem witness_EncodingLaws_legal_bytes :
    opcodeOf? (lookahead 0xEB) = some .loadConst ∧ (0xEB :: [0xFF, 0xFF, 0xFF, 0xFF] : List Byte).length = Opcode.loadConst.ilen := by
  decide
theorem witness_EncodingLaws_decodes : decode [0xFF, 0xFF, 0xFF, 0xFF, 0x00] = .ok (.loadMem 1023 65535, [0x00]) := rfl
theorem witness_FieldsByByteAndByWord_f40 :
    decode [0xEB, 0xFF, 0xFF, 0xFF, 0xFF] = .ok (.loadConst 1023 0xFFFFFF, []) ∧
      (Instr.loadConst 1023 0xFFFFFF).opcode = .loadConst := ⟨rfl, rfl⟩
theorem witness_FieldsByByteAndByWord_f32 :
    decode [0x23, 0xFF, 0xFF, 0xFF] = .ok (.bitreverse 1023 65535, []) ∧
      (Instr.bitreverse 1023 65535).opcode ≠ .loadConst := ⟨rfl, by decide⟩
theorem witness_OperandRangeIsEnforced_overflow :
    ¬∃ nb nc, Operand.numeral 1024 = .numeral nb ∧ Operand.numeral 0 = .numeral nc ∧ nb ≤ 1023 ∧
      nc ≤ (if Opcode.loadConst = .loadConst then 16777215 else 65535) := by
  rintro ⟨_, _, hb, _, h, _⟩
  cases hb
  omega
theorem witness_UnknownMnemonicIsRejected :
    ['A', 'D', 'D'] ≠ [] ∧ (∀ c ∈ ['A', 'D', 'D'], c.isWhitespace = false) ∧ ['A', 'D', 'D'].head? ≠ some ';' ∧
      ∀ op, ['A', 'D', 'D'] ≠ Asm.mnemonic op := by
  refine ⟨by decide, fun c hc => ?_, by decide, fun op => ?_⟩
  · rcases (by simpa using hc : c = 'A' ∨ c = 'D') with rfl | rfl <;> rfl
  · cases op <;> decide
theorem witness_WrongArityIsRejected_count :
    ["1".toList, " x ".toList, []].length ≠ 2 ∧ ∀ x ∈ ["1".toList, " x ".toList, []], ',' ∉ x := by decide
theorem witness_WrongArityIsRejected_operand :
    ',' ∉ "1".toList ∧ ',' ∉ "0x10".toList ∧ Asm.operand? (Asm.trim "0x10".toList) = none := by
  refine ⟨by decide, by decide, rfl⟩
theorem witness_AssemblyConcatenatesEncodings :
    List.Forall₂ (fun line i => Asm.parseInstr line = .ok i)
      (["; c".toList, "LOAD_MEM 0,2".toList].filter fun line => !Asm.isSkipped line) [.loadMem 0 2] :=
  .cons rfl .nil
theorem witness_FirstBadLineEndsAssembly :
    (∀ l ∈ ["LOAD_MEM 0,2".toList], Asm.isSkipped l = true ∨ ∃ i, Asm.parseInstr l = .ok i) ∧
      Asm.isSkipped "ADD 1,2".toList = false ∧ Asm.parseInstr "ADD 1,2".toList = .error .unknownMnemonic := by
  refine ⟨fun l h => .inr ⟨.loadMem 0 2, ?_⟩, by decide, rfl⟩
  cases List.mem_singleton.mp h
  rfl
theorem witness_AssembledProgramsFetchCleanly :
    Asm.assemble ["LOAD_MEM 0,2".toList] = .ok ⟨[0xFC, 0x00, 0x00, 0x02], [⟨63, 0, 2⟩]⟩ ∧
      core.run 1 (State.boot [0xFC, 0x00, 0x00, 0x02] 1024) =
        .next { State.boot [0xFC, 0x00, 0x00, 0x02] 1024 with pc := 4 } :=
  ⟨rfl, eq_next_of_nextState? (by decide)⟩
theorem witness_StepKeepsAssembledProgram : loadState.Assembled ∧ step loadState = .next loadState' :=
  ⟨⟨⟨[.loadMem 0 2], by decide⟩, .inl rfl⟩, loadState_step⟩
/-- The step into a fault also starts from an assembled program. -/
theorem witness_StepKeepsAssembledProgram_fault : boundsState.Assembled ∧ step boundsState = .next boundsState' :=
  ⟨⟨⟨[.loadMem 0 2], by decide⟩, .inl rfl⟩, boundsState_step⟩
theorem witness_AssemblerOutputIsAssembled :
    Asm.assemble ["LOAD_MEM 0,2".toList] = .ok ⟨[0xFC, 0x00, 0x00, 0x02], [⟨63, 0, 2⟩]⟩ := rfl
/-- The other memory differs in a cell that is not read. -/
theorem witness_InstructionTouchesFewCells :
    exec (.loadMem 0 2) loadState = .next loadState' ∧
      firstOutside loadState.memSize (checkedIndices (.loadMem 0 2) loadState) = none ∧
      ∀ a ∈ cellsRead (.loadMem 0 2) loadState, Memory.read [(0, 5), (5, 7), (9, 1)] a = loadState.mem.read a :=
  ⟨eq_next_of_nextState? (by decide), by decide, by decide⟩
theorem witness_InstructionTouchesFewCells_fault :
    exec (.loadMem 0 2) boundsState = .next boundsState' ∧
      firstOutside boundsState.memSize (checkedIndices (.loadMem 0 2) boundsState) ≠ none :=
  ⟨eq_next_of_nextState? (by decide), by decide⟩

theorem witness_StatusOfEveryState_terminal : boundsState'.status ≠ .running ∧ State.reset.status ≠ .running := by decide
theorem witness_StepExistsExactlyWhenRunning :
    loadState.ProgFits ∧ loadState'.ProgFits ∧ loadState'.status = .halted ∧
      boundsState'.ProgFits ∧ boundsState'.status = .faulted := by
  refine ⟨?_, ?_, by decide, ?_, by decide⟩ <;> unfold State.ProgFits <;> decide
theorem withProg_replicate_length (n : Nat) : (withProg (List.replicate n 0) []).prog.length = n :=
  List.length_replicate
theorem witness_TooLongProgramIsRefused : ∃ s : State, 2 ^ 32 ≤ s.prog.length :=
  ⟨_, Nat.le_of_eq (withProg_replicate_length (2 ^ 32)).symm⟩
theorem witness_StepRunsDecodedInstruction :
    loadState.ProgFits ∧ loadState.faultCause = .none ∧ loadState.pc.toNat < loadState.prog.length ∧
      decode (loadState.prog.drop loadState.pc.toNat) = .ok (.loadMem 0 2, []) :=
  ⟨by unfold State.ProgFits; decide, by decide, by decide, rfl⟩
theorem witness_StepRunsEncodedInstruction :
    loadState.prog = [] ++ encode (.loadMem 0 2) ++ [] ∧ loadState.pc.toNat = ([] : List Byte).length := by decide
theorem witness_PlacedWordIsRunNext :
    decodeTableWord 32 0xFC000002 = some (.loadMem 0 2) ∧ (loadState'.withFetchWord 32 0xFC000002).ProgFits := by
  refine ⟨by decide, ?_⟩
  unfold State.ProgFits
  decide
theorem witness_UnknownOpcodeStops :
    unknownState.ProgFits ∧ unknownState.faultCause = .none ∧ unknownState.pc.toNat < unknownState.prog.length ∧
      ∀ a ∈ [58, 63, 31, 8], (lookahead unknownState.firstByte).toNat ≠ a := by
  refine ⟨?_, by decide, by decide, by decide⟩
  unfold State.ProgFits
  decide
theorem witness_TruncationStops_truncated :
    shortState.ProgFits ∧ shortState.faultCause = .none ∧ shortState.pc.toNat < shortState.prog.length ∧
      (lookahead shortState.firstByte).toNat = 58 ∧ shortState.prog.length < shortState.pc.toNat + 5 := by
  refine ⟨?_, by decide, by decide, by decide, by decide⟩
  unfold State.ProgFits
  decide
theorem witness_TruncationStops_exact_fit :
    (lookahead loadState.firstByte).toNat = 63 ∧ loadState.pc.toNat + 4 ≤ loadState.prog.length := by decide
theorem witness_FaultsInPriorityOrder :
    (∃ t, step unknownState = .next t) ∧ opcodeOf? (lookahead unknownState.firstByte) = none ∧
      (∃ t, step shortState = .next t) ∧ opcodeOf? (lookahead shortState.firstByte) = some .loadConst ∧
      shortState.prog.length < shortState.pc.toNat + Opcode.loadConst.ilen ∧
      opcodeOf? (lookahead boundsState.firstByte) = some .loadMem ∧
      boundsState.pc.toNat + Opcode.loadMem.ilen ≤ boundsState.prog.length ∧
      firstOutside boundsState.memSize (checkedIndices (.loadMem 0 2) boundsState) = some 1024 ∧
      firstOutside loadState.memSize (checkedIndices (.loadMem 0 2) loadState) = none :=
  ⟨⟨{ unknownState with faultCause := .unknownOpcode, faultVal := 23 }, eq_next_of_nextState? (by decide)⟩, by decide,
    ⟨{ shortState with faultCause := .truncatedInstruction, faultVal := 58 }, eq_next_of_nextState? (by decide)⟩,
    by decide, by decide, by decide, by decide, by decide, by decide⟩
theorem witness_StepRefinesWholeStepRule_terminal :
    boundsState'.faultCause ≠ .none ∧ loadState'.prog.length ≤ loadState'.pc.toNat := by decide
theorem witness_PcAdvancesByLength :
    boundsState'.faultCause ≠ .none ∧ loadState'.faultCause = .none ∧ loadState'.pc.toNat = loadState'.prog.length := by
  decide
/-- A completed step that leaves the core RUNNING. -/
theorem witness_PcAdvancesByLength_running :
    step (withProg [0xE8, 0x00, 0x00, 0x00, 0x2A, 0x5C] []) =
      .next { withProg [0xE8, 0x00, 0x00, 0x00, 0x2A, 0x5C] [(0, 42)] with pc := 5 } ∧
    (5 : BitVec 32).toNat < (withProg [0xE8, 0x00, 0x00, 0x00, 0x2A, 0x5C] []).prog.length :=
  ⟨eq_next_of_nextState? (by decide), by decide⟩
theorem witness_StepReadsOnlyFetchedBytes :
    [0xE8, 0x00, 0x00, 0x00, 0x2A, (0xFF : Byte)].length = (withProg [0xE8, 0x00, 0x00, 0x00, 0x2A, 0x5C] []).prog.length ∧
    ∀ k < fetchWidth (withProg [0xE8, 0x00, 0x00, 0x00, 0x2A, 0x5C] []),
      [0xE8, 0x00, 0x00, 0x00, 0x2A, (0xFF : Byte)][0 + k]? =
        (withProg [0xE8, 0x00, 0x00, 0x00, 0x2A, 0x5C] []).prog[0 + k]? := by decide
theorem witness_ControlIgnoresData :
    step (withProg [0xFC, 0x00, 0x00, 0x02] []) = .next { withProg [0xFC, 0x00, 0x00, 0x02] [] with pc := 4 } ∧
      (withProg [0xFC, 0x00, 0x00, 0x02] []).prog = loadState.prog ∧ loadState'.faultCause = .none :=
  ⟨eq_next_of_nextState? (by decide), by decide, by decide⟩

theorem witness_LoadConstEffect :
    (1023 : BitVec 10).toNat < State.reset.memSize ∧ smallState.memSize ≤ (4 : BitVec 10).toNat ∧
      State.reset.memSize = 1024 := by decide
theorem witness_LoadMemEffect_completes :
    (0 : BitVec 10).toNat < smallState.memSize ∧ (smallState.mem.read 0).toNat < smallState.memSize ∧
      (3 : BitVec 16).toNat < smallState.memSize := by decide
theorem witness_LoadMemEffect_b_outside : smallState.memSize ≤ (4 : BitVec 10).toNat := by decide
theorem witness_LoadMemEffect_pointer_outside :
    (1 : BitVec 10).toNat < smallState.memSize ∧ smallState.memSize ≤ (smallState.mem.read 1).toNat := by decide
theorem witness_LoadMemEffect_c_outside :
    (0 : BitVec 10).toNat < smallState.memSize ∧ (smallState.mem.read 0).toNat < smallState.memSize ∧
      smallState.memSize ≤ (4 : BitVec 16).toNat := by decide
theorem witness_LoadMemEffect_c_beyond_1024 : State.reset.memSize = 1024 ∧ 1024 ≤ (1024 : BitVec 16).toNat := by decide
theorem witness_StoreMemEffect_completes :
    (2 : BitVec 10).toNat < smallState.memSize ∧ (smallState.mem.read 2).toNat < smallState.memSize ∧
      (3 : BitVec 16).toNat < smallState.memSize := by decide
theorem witness_StoreMemEffect_b_outside : smallState.memSize ≤ (1023 : BitVec 10).toNat := by decide
theorem witness_StoreMemEffect_pointer_outside :
    (1 : BitVec 10).toNat < smallState.memSize ∧ smallState.memSize ≤ (smallState.mem.read 1).toNat := by decide
theorem witness_StoreMemEffect_c_outside :
    (2 : BitVec 10).toNat < smallState.memSize ∧ (smallState.mem.read 2).toNat < smallState.memSize ∧
      smallState.memSize ≤ (65535 : BitVec 16).toNat := by decide
theorem witness_BitreverseEffect_completes :
    (0 : BitVec 10).toNat < smallState.memSize ∧ (smallState.mem.read 0).toNat < smallState.memSize ∧
      (2 : BitVec 16).toNat < smallState.memSize ∧ (smallState.mem.read 2).toNat < smallState.memSize := by decide
theorem witness_BitreverseEffect_b_outside : smallState.memSize ≤ (4 : BitVec 10).toNat := by decide
theorem witness_BitreverseEffect_p_outside :
    (1 : BitVec 10).toNat < smallState.memSize ∧ smallState.memSize ≤ (smallState.mem.read 1).toNat := by decide
theorem witness_BitreverseEffect_c_outside :
    (0 : BitVec 10).toNat < smallState.memSize ∧ (smallState.mem.read 0).toNat < smallState.memSize ∧
      smallState.memSize ≤ (4 : BitVec 16).toNat := by decide
theorem witness_BitreverseEffect_q_outside :
    (0 : BitVec 10).toNat < smallState.memSize ∧ (smallState.mem.read 0).toNat < smallState.memSize ∧
      (1 : BitVec 16).toNat < smallState.memSize ∧ smallState.memSize ≤ (smallState.mem.read 1).toNat := by decide
theorem witness_BoundsCheckedInOrder :
    firstOutside smallState.memSize (checkedIndices (.bitreverse 0 1) smallState) = some 9 ∧
      firstOutside smallState.memSize (checkedIndices (.bitreverse 0 2) smallState) = none := by decide
theorem witness_Bitrev32Properties : (31 : Nat) < 32 ∧ (24 : Nat) ≤ 32 ∧ (0xFFFFFF : Word).toNat < 2 ^ 24 := by decide
theorem witness_BitreverseTwiceRestores :
    (withProg [] [(0, 4), (1, 4), (4, 6)]).mem.read (0 : BitVec 10).toNat = 4 ∧
      (withProg [] [(0, 4), (1, 4), (4, 6)]).mem.read (1 : BitVec 16).toNat = 4 ∧
      (4 : Word).toNat < State.reset.memSize ∧ (4 : Word).toNat ≠ (0 : BitVec 10).toNat ∧
      (4 : Word).toNat ≠ (1 : BitVec 16).toNat := by decide

/-- Row LM2: C = B. -/
theorem witness_AliasedOperands_loadMem_c_is_b :
    exec (.loadMem 0 0) (withProg [] [(0, 2), (2, 20)]) = .next { withProg [] [(0, 20), (2, 20)] with pc := 4 } :=
  eq_next_of_nextState? (by decide)
/-- p = C. -/
theorem witness_AliasedOperands_loadMem_p_is_c :
    exec (.loadMem 0 2) (withProg [] [(0, 2), (2, 20)]) = .next { withProg [] [(0, 2), (2, 20)] with pc := 4 } :=
  eq_next_of_nextState? (by decide)
/-- Row LM3: p = B. -/
theorem witness_AliasedOperands_loadMem_p_is_b :
    exec (.loadMem 4 8) (withProg [] [(4, 4)]) = .next { withProg [] [(4, 4), (8, 4)] with pc := 4 } :=
  eq_next_of_nextState? (by decide)
/-- Row SM2: p = B. -/
theorem witness_AliasedOperands_storeMem_p_is_b :
    exec (.storeMem 0 5) (withProg [] [(5, 77)]) = .next { withProg [] [(0, 77), (5, 77)] with pc := 4 } :=
  eq_next_of_nextState? (by decide)
/-- p = C. -/
theorem witness_AliasedOperands_storeMem_p_is_c :
    exec (.storeMem 0 5) (withProg [] [(0, 5), (5, 77)]) = .next { withProg [] [(0, 5), (5, 77)] with pc := 4 } :=
  eq_next_of_nextState? (by decide)
/-- Row SM3: C = B. -/
theorem witness_AliasedOperands_storeMem_c_is_b :
    exec (.storeMem 3 3) (withProg [] [(3, 9)]) = .next { withProg [] [(3, 9), (9, 9)] with pc := 4 } :=
  eq_next_of_nextState? (by decide)
/-- Row BR1: p = q. -/
theorem witness_AliasedOperands_bitreverse_p_is_q :
    exec (.bitreverse 0 0) (withProg [] [(0, 1), (1, 1)]) =
      .next { withProg [] [(0, 1), (1, 0x80000000)] with pc := 4 } :=
  eq_next_of_nextState? (by decide +kernel)
/-- Row BR3: q = B. -/
theorem witness_AliasedOperands_bitreverse_q_is_b :
    exec (.bitreverse 0 1) (withProg [] [(0, 3), (3, 6)]) =
      .next { withProg [] [(0, 0x60000000), (3, 6)] with pc := 4 } :=
  eq_next_of_nextState? (by decide +kernel)
/-- Row BR4: q = C. -/
theorem witness_AliasedOperands_bitreverse_q_is_c :
    exec (.bitreverse 0 9) (withProg [] [(0, 5), (5, 3), (9, 9)]) =
      .next { withProg [] [(0, 5), (5, 3), (9, 0xC0000000)] with pc := 4 } :=
  eq_next_of_nextState? (by decide +kernel)

theorem witness_RaisingWritesOnlyTheRecord :
    step boundsState = .next boundsState' ∧ boundsState'.faultCause ≠ .none := ⟨boundsState_step, by decide⟩
theorem witness_FaultsArePrecise :
    core.run 1 boundsState = .next boundsState' ∧ boundsState.faultCause = .none ∧ boundsState'.faultCause ≠ .none :=
  ⟨boundsState_run, by decide, by decide⟩
theorem witness_FaultedUntilReset :
    step loadState = .next loadState' ∧ boundsState'.faultCause ≠ .none ∧
      core.run 0 boundsState' = .next boundsState' ∧ boundsState'.ProgFits :=
  ⟨loadState_step, by decide, rfl, by unfold State.ProgFits; decide⟩
theorem witness_FaultedRunHasNoResult : boundsState'.faultCause ≠ .none ∧ 1023 < boundsState'.memSize := by decide
theorem witness_PcNeverLeavesProgram :
    loadState.pc.toNat ≤ loadState.prog.length ∧ step loadState = .next loadState' ∧ loadState'.faultCause = .none :=
  ⟨by decide, loadState_step, by decide⟩
theorem witness_StepKeepsMachineInvariant : loadState.Inv ∧ step loadState = .next loadState' :=
  ⟨⟨by unfold State.ProgFits; decide, by decide, by decide, by decide, by decide, ⟨rfl, rfl⟩⟩, loadState_step⟩
/-- The invariant also holds of a state with a fault recorded. -/
theorem witness_Inv_faulted : boundsState'.Inv :=
  ⟨by unfold State.ProgFits; decide, by decide, by decide, by decide, by decide, ⟨rfl, by decide⟩⟩
theorem witness_ResetHasMachineInvariant :
    ([0x5C] : List Byte).length ≤ 2 ^ 32 - 1 ∧ boundsState'.ProgFits := ⟨by decide, by unfold State.ProgFits; decide⟩
theorem witness_RunsAreFinite :
    step loadState = .next loadState' ∧
      core.run 1 (State.boot [0xFC, 0x00, 0x00, 0x02] 1024) =
        .next { State.boot [0xFC, 0x00, 0x00, 0x02] 1024 with pc := 4 } :=
  ⟨loadState_step, eq_next_of_nextState? (by decide)⟩
theorem witness_ProgramIsImmutable : core.run 1 loadState = .next loadState' := loadState_run
theorem witness_RunEndsHaltedOrFaulted :
    loadState'.ProgFits ∧ loadState'.faultCause = .none ∧ loadState'.pc.toNat = loadState'.prog.length ∧
      boundsState'.ProgFits ∧ boundsState'.pc.toNat ≤ boundsState'.prog.length ∧ boundsState'.faultCause ≠ .none := by
  refine ⟨?_, by decide, by decide, ?_, by decide, by decide⟩ <;> unfold State.ProgFits <;> decide
theorem witness_ReadoutAndDump :
    loadState'.status = .halted ∧ 1023 ≤ 1023 ∧ 1023 < loadState'.memSize ∧ loadState'.memSize ≤ 1024 := by decide
theorem witness_CanonicalMemoriesAreEqual : Memory.wf [(1, 5), (1023, 0xFFFFFFFF)] := by decide

end Sys2Proof.Tests
end

