-- ==== Sys2Proof/Proofs/StepLaws.lean ====
section
/-! What a step can do, said once: the fetch stays inside the program, an instruction records a fault or completes,
and a run is an iteration of such steps. -/

namespace Sys2Proof

theorem decodeF40_ok {mk : BitVec 10 → BitVec 24 → Instr} {b0 : Byte} {bytes rest : List Byte} {i : Instr}
    (h : decodeF40 mk b0 bytes = .ok (i, rest)) :
    (∃ b c, i = mk b c) ∧ bytes.length = rest.length + 4 := by
  unfold decodeF40 at h
  split at h
  · obtain ⟨rfl, rfl⟩ : _ = i ∧ _ = rest := by simpa using h
    exact ⟨⟨_, _, rfl⟩, by simp⟩
  · simp at h

theorem decodeF32_ok {mk : BitVec 10 → BitVec 16 → Instr} {b0 : Byte} {bytes rest : List Byte} {i : Instr}
    (h : decodeF32 mk b0 bytes = .ok (i, rest)) :
    (∃ b c, i = mk b c) ∧ bytes.length = rest.length + 3 := by
  unfold decodeF32 at h
  split at h
  · obtain ⟨rfl, rfl⟩ : _ = i ∧ _ = rest := by simpa using h
    exact ⟨⟨_, _, rfl⟩, by simp⟩
  · simp at h

/-- A decoded instruction has taken exactly its own length, and its kind is the one the first byte selects. -/
theorem decode_ok {bytes rest : List Byte} {i : Instr} (h : decode bytes = .ok (i, rest)) :
    ∃ b0 tail, bytes = b0 :: tail ∧ opcodeOf? (lookahead b0) = some i.opcode ∧
      bytes.length = rest.length + i.opcode.ilen := by
  cases bytes with
  | nil => simp [decode] at h
  | cons b0 tail =>
    refine ⟨b0, tail, rfl, ?_⟩
    rw [decode_cons] at h
    cases hop : opcodeOf? (lookahead b0) with
    | none => simp [hop] at h
    | some op =>
      rw [hop] at h
      cases op with
      | loadConst =>
        obtain ⟨⟨b, c, rfl⟩, hlen⟩ := decodeF40_ok h
        simp [Instr.opcode, hlen]
      | loadMem =>
        obtain ⟨⟨b, c, rfl⟩, hlen⟩ := decodeF32_ok h
        simp [Instr.opcode, hlen]
      | storeMem =>
        obtain ⟨⟨b, c, rfl⟩, hlen⟩ := decodeF32_ok h
        simp [Instr.opcode, hlen]
      | bitreverse =>
        obtain ⟨⟨b, c, rfl⟩, hlen⟩ := decodeF32_ok h
        simp [Instr.opcode, hlen]

/-- R47: an instruction is 4 or 5 bytes long. -/
theorem Opcode.ilen_eq_four_or_five (op : Opcode) : op.ilen = 4 ∨ op.ilen = 5 := by
  cases op <;> simp

namespace Machine

/-- R26: a fetched instruction lies inside the program, and the first byte at `pc` selects its kind. -/
theorem fetch_ok {s : State} {i : Instr} (h : fetch s = .ok i) :
    opcodeOf? (lookahead s.firstByte) = some i.opcode ∧ s.pc.toNat + i.opcode.ilen ≤ s.prog.length := by
  unfold fetch at h
  cases hd : decode (s.prog.drop s.pc.toNat) with
  | error e => simp [hd, Except.map] at h
  | ok r =>
    obtain ⟨j, rest⟩ := r
    obtain rfl : j = i := by simpa [hd, Except.map] using h
    obtain ⟨b0, tail, hbytes, hop, hlen⟩ := decode_ok hd
    have hfirst : s.firstByte = b0 := by
      have hget : s.prog[s.pc.toNat]? = some b0 := by
        rw [← Nat.add_zero s.pc.toNat, ← List.getElem?_drop, hbytes]; rfl
      simp [State.firstByte, hget]
    have hpos := j.opcode.ilen_eq_four_or_five
    rw [List.length_drop] at hlen
    exact ⟨hfirst ▸ hop, by omega⟩

/-- The instruction at `pc` is completed by writing `v` to cell `dst`: the one write and the advance (R77, R78). -/
def State.complete (s : State) (i : Instr) (dst v : Word) : State :=
  (s.writeCell dst.toNat v).advance i.opcode.ilen

section complete
variable (s : State) (i : Instr) (dst v : Word)

@[simp] theorem State.complete_prog : (s.complete i dst v).prog = s.prog := rfl
@[simp] theorem State.complete_memSize : (s.complete i dst v).memSize = s.memSize := rfl
@[simp] theorem State.complete_pc : (s.complete i dst v).pc = s.pc + BitVec.ofNat 32 i.opcode.ilen := rfl
@[simp] theorem State.complete_mem : (s.complete i dst v).mem = s.mem.write dst.toNat v := rfl
@[simp] theorem State.complete_faultCause : (s.complete i dst v).faultCause = s.faultCause := rfl
@[simp] theorem State.complete_faultPc : (s.complete i dst v).faultPc = s.faultPc := rfl
@[simp] theorem State.complete_faultVal : (s.complete i dst v).faultVal = s.faultVal := rfl

end complete

/-- Every meaning has the one shape of `finish`, at its instruction's own length. -/
theorem exec_eq_finish (i : Instr) (s : State) : ∃ effect, exec i s = finish i.opcode.ilen s effect := by
  cases i <;> exact ⟨_, rfl⟩

/-- Everything an instruction can do. -/
theorem exec_cases (i : Instr) (s : State) :
    (∃ index, exec i s = .next (s.raise .outOfBoundsAccess index)) ∨
    (∃ dst v, exec i s = .next (s.complete i dst v)) := by
  obtain ⟨effect, hexec⟩ := exec_eq_finish i s
  rw [hexec]
  obtain ⟨index, -, hfin⟩ | ⟨dst, v, -, hfin⟩ := finish_cases i.opcode.ilen s effect
  · exact .inl ⟨index, hfin⟩
  · exact .inr ⟨dst, v, hfin⟩

/-- A decode error that answers a next state has raised one of the two fetch faults. -/
theorem raiseDecodeError_next {e : DecodeError} {s t : State} (h : raiseDecodeError e s = .next t) :
    ∃ cause info, cause ≠ .none ∧ t = s.raise cause info := by
  cases e with
  | noBytes => simp [raiseDecodeError] at h
  | unknownOpcode a => exact ⟨.unknownOpcode, a.setWidth 32, by simp, by simpa [raiseDecodeError] using h.symm⟩
  | truncated a => exact ⟨.truncatedInstruction, a.setWidth 32, by simp, by simpa [raiseDecodeError] using h.symm⟩

/-- Everything a step that answers a next state can do: raise the fetch fault of bytes that do not decode, record the
fetched instruction's offending index, or complete the fetched instruction. -/
theorem step_cases {s t : State} (h : step s = .next t) :
    (∃ e, fetch s = .error e ∧ raiseDecodeError e s = .next t) ∨
    (∃ i index, fetch s = .ok i ∧ t = s.raise .outOfBoundsAccess index) ∨
    (∃ i dst v, fetch s = .ok i ∧ t = s.complete i dst v) := by
  obtain ⟨hfits, hrun⟩ := running_of_step_next h
  rw [step_of_running hfits hrun] at h
  cases hf : fetch s with
  | error e =>
    rw [hf] at h
    exact .inl ⟨e, rfl, h⟩
  | ok i =>
    rw [hf] at h
    obtain ⟨index, hx⟩ | ⟨dst, v, hx⟩ := exec_cases i s
    · exact .inr (.inl ⟨i, index, rfl, by simpa [hx] using h.symm⟩)
    · exact .inr (.inr ⟨i, dst, v, rfl, by simpa [hx] using h.symm⟩)

/-- A step that answers a next state raises one of the three faults or completes the fetched instruction. -/
theorem step_raises_or_completes {s t : State} (h : step s = .next t) :
    (∃ cause info, cause ≠ .none ∧ t = s.raise cause info) ∨
    (∃ i dst v, fetch s = .ok i ∧ t = s.complete i dst v) := by
  obtain ⟨e, -, he⟩ | ⟨i, index, -, ht⟩ | hcompletes := step_cases h
  · exact .inl (raiseDecodeError_next he)
  · exact .inl ⟨.outOfBoundsAccess, index, by simp, ht⟩
  · exact .inr hcompletes

/-- R17: completing a fetched instruction advances `pc` exactly, with no wrap. -/
theorem complete_pc_toNat {s : State} {i : Instr} (hfits : s.prog.length ≤ Config.maxProgLen) (hf : fetch s = .ok i)
    (dst v : Word) : (s.complete i dst v).pc.toNat = s.pc.toNat + i.opcode.ilen := by
  obtain ⟨-, hin⟩ := fetch_ok hf
  have hlt : s.pc.toNat + i.opcode.ilen < 2 ^ 32 :=
    Nat.lt_of_le_of_lt (Nat.le_trans hin hfits) (by decide)
  rw [State.complete_pc, BitVec.toNat_add, BitVec.toNat_ofNat, Nat.add_mod_mod, Nat.mod_eq_of_lt hlt]

/-- The control side of a step: the core was RUNNING, the program stays, and either a fault is recorded and `pc` stays,
or no fault is recorded and `pc` moves past the 4 or 5 bytes of an instruction inside the program. -/
theorem step_control {s t : State} (h : step s = .next t) :
    s.faultCause = .none ∧ s.pc.toNat < s.prog.length ∧ t.prog = s.prog ∧
      ((t.faultCause ≠ .none ∧ t.pc = s.pc) ∨
       (t.faultCause = .none ∧ ∃ n, (n = 4 ∨ n = 5) ∧ t.pc.toNat = s.pc.toNat + n ∧ t.pc.toNat ≤ s.prog.length)) := by
  obtain ⟨hfits, hrun⟩ := running_of_step_next h
  obtain ⟨hnone, hpc⟩ := status_running_iff.mp hrun
  obtain ⟨cause, info, hcause, rfl⟩ | ⟨i, dst, v, hf, rfl⟩ := step_raises_or_completes h
  · exact ⟨hnone, hpc, by simp, .inl ⟨by simpa using hcause, by simp⟩⟩
  · have hadv := complete_pc_toNat hfits hf dst v
    obtain ⟨-, hin⟩ := fetch_ok hf
    exact ⟨hnone, hpc, by simp, .inr ⟨by simpa using hnone, _, i.opcode.ilen_eq_four_or_five, hadv, hadv ▸ hin⟩⟩

/-- A run of one step more is a step followed by a run, of any machine behind the host's interface. -/
theorem coreRun_succ_next_iff (M : Host.Core) {s t : M.State} {k : Nat} :
    M.run (k + 1) s = .next t ↔ ∃ u, M.step s = .next u ∧ M.run k u = .next t := by
  rw [Host.Core.run]
  cases M.step s <;> simp

theorem run_succ_next_iff {s t : State} {k : Nat} :
    core.run (k + 1) s = .next t ↔ ∃ u, step s = .next u ∧ core.run k u = .next t :=
  coreRun_succ_next_iff core

/-- Induction over a run: what holds of its start and is kept by each of its steps holds where it stands after `k`. -/
theorem run_induction {P : Nat → State → Prop} (hstep : ∀ k s t, P k s → step s = .next t → P (k + 1) t)
    {s t : State} {k : Nat} (hstart : P 0 s) (h : core.run k s = .next t) : P k t := by
  suffices hgen : ∀ (k j : Nat) (s : State), P j s → core.run k s = .next t → P (j + k) t by
    simpa using hgen k 0 s hstart h
  intro k
  induction k with
  | zero =>
    intro j s hs h
    obtain rfl : s = t := Host.Outcome.next.inj h
    exact hs
  | succ k ih =>
    intro j s hs h
    obtain ⟨u, hu, hrest⟩ := run_succ_next_iff.mp h
    rw [Nat.add_comm k 1, ← Nat.add_assoc]
    exact ih (j + 1) u (hstep j s u hs hu) hrest

end Machine

end Sys2Proof
end

