-- ==== Sys2Proof/Proofs/FiniteRuns.lean ====
section
/-! R14: the length of a run is bounded by the program's length, since every completed instruction takes at least four
of its bytes. -/

namespace Sys2Proof.Machine

/-- Where a run of `prog` stands after `k` steps: inside the program, past at least four bytes for each step but a
faulting last one. -/
structure State.RanFor (t : State) (prog : List Byte) (k : Nat) : Prop where
  progKept : t.prog = prog
  pcInProg : t.pc.toNat ≤ prog.length
  bytesPassed : 4 * k ≤ t.pc.toNat + if t.faultCause = .none then 0 else 4

theorem boot_ranFor_zero (prog : List Byte) (memSize : Nat) : (State.boot prog memSize).RanFor prog 0 :=
  ⟨rfl, Nat.zero_le _, Nat.zero_le _⟩

theorem step_keeps_ranFor (prog : List Byte) (k : Nat) (s t : State) (hs : s.RanFor prog k) (h : step s = .next t) :
    t.RanFor prog (k + 1) := by
  obtain ⟨rfl, hpc, hbytes⟩ := hs
  obtain ⟨hnone, -, hprog, ⟨hfault, hsame⟩ | ⟨hok, n, hn, hadv, hin⟩⟩ := step_control h
  · rw [if_pos hnone] at hbytes
    exact ⟨hprog, by rwa [hsame], by rw [if_neg hfault, hsame]; omega⟩
  · rw [if_pos hnone] at hbytes
    exact ⟨hprog, hin, by rw [if_pos hok]; omega⟩

theorem run_boot_ranFor {prog : List Byte} {memSize k : Nat} {t : State}
    (h : core.run k (State.boot prog memSize) = .next t) : t.RanFor prog k :=
  run_induction (step_keeps_ranFor prog) (boot_ranFor_zero prog memSize) h

/-- R118's step count of a run, and R14's of its completed instructions. -/
theorem State.RanFor.steps_le {t : State} {prog : List Byte} {k : Nat} (h : t.RanFor prog k) :
    k ≤ prog.length / 4 + 1 ∧ (t.faultCause = .none → k ≤ prog.length / 4) := by
  obtain ⟨-, hpc, hbytes⟩ := h
  split at hbytes
  case isTrue => omega
  case isFalse hfault => exact ⟨by omega, fun hnone => absurd hnone hfault⟩

/-- Settles O43: by induction over the run, four bytes of the program are passed for each completed step. -/
theorem runsAreFinite : Obligations.RunsAreFinite := by
  unfold Obligations.RunsAreFinite
  refine ⟨fun s t h => ?_, fun prog memSize k t h => (run_boot_ranFor h).steps_le⟩
  obtain ⟨-, -, -, ⟨hfault, -⟩ | ⟨-, n, rfl | rfl, hadv, -⟩⟩ := step_control h
  · exact .inl (status_faulted_iff.mpr hfault)
  · exact .inr (.inl hadv)
  · exact .inr (.inr hadv)

end Sys2Proof.Machine
end

