-- ==== Sys2Proof/Proofs/ArchState.lean ====
section
/-! The architectural state: `pc` stays inside the program (R17), STATUS is a function of the fault record and `pc`
(R22), and reset zeroes the state and nothing of the run's inputs (R29, R111). -/

namespace Sys2Proof.Machine

/-- R17: a completed step advances `pc` by an instruction's length, inside the program and inside the 32 bits of `pc`. -/
theorem completed_step_advances {s t : State} (h : step s = .next t) (hok : t.faultCause = .none) :
    ∃ n, (n = 4 ∨ n = 5) ∧ s.pc.toNat + n ≤ s.prog.length ∧ s.pc.toNat + n ≤ 2 ^ 32 - 1 ∧
      t.pc.toNat = s.pc.toNat + n := by
  obtain ⟨-, -, -, ⟨hfault, -⟩ | ⟨-, n, hn, hadv, hin⟩⟩ := step_control h
  · exact absurd hok hfault
  · have hwidth : t.pc.toNat ≤ 2 ^ 32 - 1 := Nat.le_pred_of_lt t.pc.isLt
    exact ⟨n, hn, hadv ▸ hin, hadv ▸ hwidth, hadv⟩

/-- The invariant of R17: a fault leaves `pc` where it is, a completed step stops at the program's end at the latest. -/
theorem step_keeps_pc_le {s t : State} (hpc : s.pc.toNat ≤ s.prog.length) (h : step s = .next t) :
    t.pc.toNat ≤ t.prog.length := by
  obtain ⟨-, -, hprog, ⟨-, hsame⟩ | ⟨-, n, -, -, hin⟩⟩ := step_control h
  · rwa [hprog, hsame]
  · rwa [hprog]

/-- Settles O40: every run starts at `pc = 0`; the step's truncation check keeps `pc` inside the program. -/
theorem pcNeverLeavesProgram : Obligations.PcNeverLeavesProgram := by
  unfold Obligations.PcNeverLeavesProgram
  exact ⟨fun prog memSize => Nat.zero_le _,
    fun s t hpc h => ⟨step_keeps_pc_le hpc h, completed_step_advances h⟩⟩

/-- R21: code 0 is the code of no fault, and of nothing else. -/
theorem FaultCause.code_eq_zero_iff {cause : FaultCause} : cause.code = 0 ↔ cause = .none := by
  cases cause <;> simp [FaultCause.code]

/-- R22: code 3 is reserved. -/
theorem Status.code_ne_three (status : Status) : status.code ≠ 3 := by
  cases status <;> decide

/-- Settles O14: each status is read off the fault code and `pc`, and a step with a next state starts in RUNNING. -/
theorem statusOfEveryState : Obligations.StatusOfEveryState := by
  unfold Obligations.StatusOfEveryState
  refine ⟨fun s => ⟨?faulted, ?halted, ?running, ?terminal, s.status.code_ne_three⟩, rfl, rfl, rfl⟩
  case faulted => rw [Ne, FaultCause.code_eq_zero_iff]; exact status_faulted_iff
  case halted => rw [FaultCause.code_eq_zero_iff]; exact status_halted_iff
  case running => rw [FaultCause.code_eq_zero_iff]; exact status_running_iff
  case terminal => exact fun hstop t h => hstop (running_of_step_next h).2

/-- R29: reset leaves the core RUNNING where there is a byte to fetch, and HALTED on the empty program. -/
theorem State.applyReset_status (s : State) :
    s.applyReset.status = if 0 < s.prog.length then .running else .halted := by
  split
  case isTrue hbytes => exact status_running_iff.mpr ⟨rfl, hbytes⟩
  case isFalse hempty => exact status_halted_iff.mpr ⟨rfl, Nat.le_of_not_lt hempty⟩

/-- Settles O45: field by field by the laws of `applyReset`; only the derived STATUS depends on the program. -/
theorem resetZeroesEverything : Obligations.ResetZeroesEverything := by
  unfold Obligations.ResetZeroesEverything
  exact ⟨fun s => ⟨s.applyReset_pc, Memory.read_nil, rfl, s.applyReset_faultPc, s.applyReset_faultVal,
    s.applyReset_prog, s.applyReset_memSize, s.applyReset_status⟩, rfl, rfl⟩

end Sys2Proof.Machine
end

