-- ==== Sys2Proof/Proofs/ExecLaws.lean ====
section
/-! What an instruction does, in the terms of its check list: the first index outside memory is recorded (R95), and with
none outside its one word goes to its one destination cell (R86). -/

namespace Sys2Proof.Machine

/-- An effect behind a list of bounds checks: the first index outside memory is its error (R95). -/
def checkThen (s : State) (indices : List Word) (effect : Word × Word) : Except Word (Word × Word) :=
  match firstOutside s.memSize indices with
  | some x => .error x
  | none => .ok effect

@[simp] theorem checkThen_nil (s : State) (effect : Word × Word) : checkThen s [] effect = pure effect := rfl

/-- The checks of a list are made one by one, in its order. -/
@[simp] theorem checkThen_cons (s : State) (x : Word) (xs : List Word) (effect : Word × Word) :
    checkThen s (x :: xs) effect = chk s x >>= fun _ => checkThen s xs effect := by
  unfold chk
  split
  case isTrue hout => simp [checkThen, firstOutside, hout, bind, Except.bind]
  case isFalse hin => simp [checkThen, firstOutside, hin, bind, Except.bind]

section bind
variable {α : Type} {w : Nat} (s : State) (k : Word → Except Word α)

/-- A check that passes answers the checked index itself. -/
theorem chk_bind (x : Word) : chk s x >>= k = chk s x >>= fun _ => k x := by
  unfold chk
  split <;> rfl

/-- The direct form is one check of the field. -/
theorem direct_bind (field : BitVec w) :
    direct s field >>= k = chk s (field.setWidth 32) >>= fun _ => k (field.setWidth 32) :=
  chk_bind s k _

/-- The cell-indirect form is a check of the field, then of the pointer that its cell holds. -/
theorem indirect_bind (hw : w ≤ 32) (field : BitVec w) :
    indirect s field >>= k =
      chk s (field.setWidth 32) >>= fun _ =>
        chk s (s.mem.read field.toNat) >>= fun _ => k (s.mem.read field.toNat) := by
  rcases Nat.lt_or_ge field.toNat s.memSize with hin | hout
  · have hcell : chk s (field.setWidth 32) = .ok (field.setWidth 32) := direct_of_lt hw hin
    rw [indirect_of_lt hw hin, hcell, chk_bind]
    rfl
  · have hcell : chk s (field.setWidth 32) = .error (field.setWidth 32) := direct_of_le hw hout
    rw [indirect_of_le hw hout, hcell]
    rfl

end bind

/-- R95 and R86 for every instruction: its checks in order, then its word for its destination. -/
theorem exec_eq_finish_checkThen (i : Instr) (s : State) :
    exec i s = finish i.opcode.ilen s
      (checkThen s (checkedIndices i s) (BitVec.ofNat 32 (destination i s), writtenWord i s)) := by
  cases i with
  | loadConst b c =>
    simp [-bind_pure_comp, exec, execLoadConst, direct_bind, checkedIndices, destination, writtenWord, immediate,
      Instr.opcode]
  | loadMem b c =>
    simp [-bind_pure_comp, exec, execLoadMem, direct_bind, indirect_bind, checkedIndices, destination, writtenWord,
      State.readCell, Instr.opcode]
  | storeMem b c =>
    simp [-bind_pure_comp, -BitVec.toNat_setWidth, exec, execStoreMem, direct_bind, indirect_bind, checkedIndices,
      destination, writtenWord, State.readCell, toNat_setWidth_field, Instr.opcode]
  | bitreverse b c =>
    simp [-bind_pure_comp, exec, execBitreverse, indirect_bind, checkedIndices, destination, writtenWord,
      State.readCell, Instr.opcode]

theorem destination_lt_two_pow (i : Instr) (s : State) : destination i s < 2 ^ 32 := by
  cases i with
  | loadConst b _ => exact Nat.lt_trans b.isLt (by decide)
  | loadMem _ c => exact Nat.lt_trans c.isLt (by decide)
  | storeMem b _ => exact (s.mem.read b.toNat).isLt
  | bitreverse _ c => exact (s.mem.read c.toNat).isLt

/-- An instruction with an index outside memory records the first one and changes nothing else. -/
theorem exec_of_outside {i : Instr} {s : State} {x : Word}
    (h : firstOutside s.memSize (checkedIndices i s) = some x) :
    exec i s = .next (s.raise .outOfBoundsAccess x) := by
  rw [exec_eq_finish_checkThen, checkThen, h, finish_error]

/-- An instruction with every index in memory writes its word to its destination and advances `pc`. -/
theorem exec_of_inside {i : Instr} {s : State} (h : firstOutside s.memSize (checkedIndices i s) = none) :
    exec i s = .next ((s.writeCell (destination i s) (writtenWord i s)).advance i.opcode.ilen) := by
  rw [exec_eq_finish_checkThen, checkThen, h, finish_ok, BitVec.toNat_ofNat,
    Nat.mod_eq_of_lt (destination_lt_two_pow i s)]

end Sys2Proof.Machine
end

