-- ==== Sys2Proof/Proofs/DataMemory.lean ====
section
/-! The data memory and the program space: no step changes the program or `MEM_SIZE` (R44), and an instruction depends
on the few cells it reads and changes one (R46). -/

namespace Sys2Proof.Machine

/-- The inputs of the run are kept by a fault and by a completed instruction alike. -/
theorem step_keeps_inputs {s t : State} (h : step s = .next t) : t.prog = s.prog ∧ t.memSize = s.memSize := by
  obtain ⟨cause, info, -, rfl⟩ | ⟨i, dst, v, -, rfl⟩ := step_raises_or_completes h
  · exact ⟨s.raise_prog cause info, s.raise_memSize cause info⟩
  · exact ⟨s.complete_prog i dst v, s.complete_memSize i dst v⟩

theorem run_keeps_inputs {s t : State} {k : Nat} (h : core.run k s = .next t) :
    t.prog = s.prog ∧ t.memSize = s.memSize := by
  refine run_induction (P := fun _ u => u.prog = s.prog ∧ u.memSize = s.memSize) ?_ ⟨rfl, rfl⟩ h
  intro _ u v ⟨hprog, hsize⟩ hstep
  obtain ⟨hprog', hsize'⟩ := step_keeps_inputs hstep
  exact ⟨hprog'.trans hprog, hsize'.trans hsize⟩

/-- Settles O44: by induction over the run; the fetch is a function of the program and `pc` alone. -/
theorem programIsImmutable : Obligations.ProgramIsImmutable := by
  unfold Obligations.ProgramIsImmutable
  exact ⟨fun s t k h => run_keeps_inputs h, fun s m => rfl⟩

section agree
variable {i : Instr} {s : State} {m : Memory}

/-- The cells read hold every pointer that is checked, so another memory that agrees on them gives the same checks. -/
theorem checkedIndices_eq_of_agree (h : ∀ a ∈ cellsRead i s, m.read a = s.mem.read a) :
    checkedIndices i { s with mem := m } = checkedIndices i s := by
  cases i with
  | loadConst b c => rfl
  | loadMem b c | storeMem b c => simp [checkedIndices, h b.toNat (by simp [cellsRead])]
  | bitreverse b c =>
    simp [checkedIndices, h b.toNat (by simp [cellsRead]), h c.toNat (by simp [cellsRead])]

/-- A destination that is no field is a pointer in a cell read. -/
theorem destination_eq_of_agree (h : ∀ a ∈ cellsRead i s, m.read a = s.mem.read a) :
    destination i { s with mem := m } = destination i s := by
  cases i with
  | loadConst b c | loadMem b c => rfl
  | storeMem b c => simp [destination, h b.toNat (by simp [cellsRead])]
  | bitreverse b c => simp [destination, h c.toNat (by simp [cellsRead])]

/-- The written word comes from the constant or from a cell read, through a pointer that is itself read. -/
theorem writtenWord_eq_of_agree (h : ∀ a ∈ cellsRead i s, m.read a = s.mem.read a) :
    writtenWord i { s with mem := m } = writtenWord i s := by
  cases i with
  | loadConst b c => rfl
  | loadMem b c | bitreverse b c =>
    simp [writtenWord, h b.toNat (by simp [cellsRead]), h (s.mem.read b.toNat).toNat (by simp [cellsRead])]
  | storeMem b c => simp [writtenWord, h c.toNat (by simp [cellsRead])]

end agree

/-- Noninterference: a completed instruction depends on the cells it reads and on no other. -/
theorem exec_depends_on_cellsRead {i : Instr} {s t : State} {m : Memory} (hexec : exec i s = .next t)
    (hinside : firstOutside s.memSize (checkedIndices i s) = none)
    (hagree : ∀ a ∈ cellsRead i s, m.read a = s.mem.read a) :
    ∃ u, exec i { s with mem := m } = .next u ∧ u = { t with mem := u.mem } ∧
      ∀ a, u.mem.read a = if a = destination i s then t.mem.read a else m.read a := by
  obtain rfl := Host.Outcome.next.inj ((exec_of_inside hinside).symm.trans hexec)
  have hexec' := exec_of_inside (i := i) (s := { s with mem := m })
    (by rw [checkedIndices_eq_of_agree hagree]; exact hinside)
  rw [destination_eq_of_agree hagree, writtenWord_eq_of_agree hagree] at hexec'
  refine ⟨_, hexec', rfl, fun a => ?_⟩
  simp only [State.advance_mem, State.writeCell_mem, Memory.read_write]
  split <;> rfl

/-- The frame of an instruction in data memory: its destination alone may change, and at a fault no cell does. -/
theorem exec_memory_frame {i : Instr} {s t : State} (hexec : exec i s = .next t) :
    (∀ a, a ≠ destination i s → t.mem.read a = s.mem.read a) ∧
      (firstOutside s.memSize (checkedIndices i s) ≠ none → t.mem = s.mem) := by
  cases hfirst : firstOutside s.memSize (checkedIndices i s) with
  | some x =>
    obtain rfl := Host.Outcome.next.inj ((exec_of_outside hfirst).symm.trans hexec)
    exact ⟨fun _ _ => rfl, fun _ => rfl⟩
  | none =>
    obtain rfl := Host.Outcome.next.inj ((exec_of_inside hfirst).symm.trans hexec)
    exact ⟨fun a ha => by simp [ha], fun hsome => absurd rfl hsome⟩

/-- Settles O52: with every index in memory an instruction is one write of a word that the cells it reads determine;
with one outside it records a fault and writes nothing. -/
theorem instructionTouchesFewCells : Obligations.InstructionTouchesFewCells := by
  unfold Obligations.InstructionTouchesFewCells
  refine ⟨fun i s t m => exec_depends_on_cellsRead, fun i s t => exec_memory_frame, fun i s => ?_⟩
  cases i <;> rfl

end Sys2Proof.Machine
end

