-- ==== Sys2Proof/Proofs/InstrWords.lean ====
section
/-! Instruction words as numbers: the bytes of a word and the word of its bytes, and the fields of a word and the word
of its fields, in both formats (R47 to R51, R75). -/

namespace Sys2Proof

theorem toNat_append_eq {m n : Nat} (x : BitVec m) (y : BitVec n) :
    (x ++ y).toNat = x.toNat * 2 ^ n + y.toNat := by
  rw [BitVec.toNat_append, ← Nat.shiftLeft_add_eq_or_of_lt y.isLt, Nat.shiftLeft_eq]

section bytes
variable (b0 b1 b2 b3 b4 : Byte)

theorem word40_toNat :
    (word40 b0 b1 b2 b3 b4).toNat =
      (((b0.toNat * 256 + b1.toNat) * 256 + b2.toNat) * 256 + b3.toNat) * 256 + b4.toNat := by
  change (b0 ++ b1 ++ b2 ++ b3 ++ b4 : BitVec (8 + 8 + 8 + 8 + 8)).toNat = _
  simp only [toNat_append_eq, Nat.reducePow]

theorem word32_toNat :
    (word32 b0 b1 b2 b3).toNat = ((b0.toNat * 256 + b1.toNat) * 256 + b2.toNat) * 256 + b3.toNat := by
  change (b0 ++ b1 ++ b2 ++ b3 : BitVec (8 + 8 + 8 + 8)).toNat = _
  simp only [toNat_append_eq, Nat.reducePow]

/-- `ProgRead(o, 5)` is the 40-bit instruction word (R8, R35). -/
theorem progReadNat_five : Machine.progReadNat [b0, b1, b2, b3, b4] 0 5 = (word40 b0 b1 b2 b3 b4).toNat := by
  simp [Machine.progReadNat, word40_toNat]

/-- `ProgRead(o, 4)` is the 32-bit instruction word (R8, R35). -/
theorem progReadNat_four : Machine.progReadNat [b0, b1, b2, b3] 0 4 = (word32 b0 b1 b2 b3).toNat := by
  simp [Machine.progReadNat, word32_toNat]

theorem progReadNat_one (bytes : List Byte) : Machine.progReadNat (b0 :: bytes) 0 1 = b0.toNat := by
  simp [Machine.progReadNat]

theorem lookahead_toNat : (lookahead b0).toNat = b0.toNat / 4 := by
  rw [lookahead, BitVec.extractLsb'_toNat]
  omega

/-- R59 for format `F40`. -/
theorem word40_fieldA : (word40 b0 b1 b2 b3 b4).extractLsb' 34 6 = lookahead b0 := by
  apply BitVec.eq_of_toNat_eq
  rw [BitVec.extractLsb'_toNat, word40_toNat, lookahead_toNat]
  omega

/-- R59 for format `F32`. -/
theorem word32_fieldA : (word32 b0 b1 b2 b3).extractLsb' 26 6 = lookahead b0 := by
  apply BitVec.eq_of_toNat_eq
  rw [BitVec.extractLsb'_toNat, word32_toNat, lookahead_toNat]
  omega

theorem bytes40_word40 : bytes40 (word40 b0 b1 b2 b3 b4) = [b0, b1, b2, b3, b4] := by
  simp only [bytes40, List.cons.injEq, and_true, ← BitVec.toNat_inj, BitVec.extractLsb'_toNat, word40_toNat]
  omega

theorem bytes32_word32 : bytes32 (word32 b0 b1 b2 b3) = [b0, b1, b2, b3] := by
  simp only [bytes32, List.cons.injEq, and_true, ← BitVec.toNat_inj, BitVec.extractLsb'_toNat, word32_toNat]
  omega

end bytes

theorem word40_of_bytes (w : BitVec 40) :
    word40 (w.extractLsb' 32 8) (w.extractLsb' 24 8) (w.extractLsb' 16 8) (w.extractLsb' 8 8)
      (w.extractLsb' 0 8) = w := by
  apply BitVec.eq_of_toNat_eq
  simp only [BitVec.extractLsb'_toNat, word40_toNat]
  omega

theorem word32_of_bytes (w : BitVec 32) :
    word32 (w.extractLsb' 24 8) (w.extractLsb' 16 8) (w.extractLsb' 8 8) (w.extractLsb' 0 8) = w := by
  apply BitVec.eq_of_toNat_eq
  simp only [BitVec.extractLsb'_toNat, word32_toNat]
  omega

/-- The bytes of a word are those of its number, most significant first (R35). -/
theorem bigEndianBytes_five (w : BitVec 40) : bigEndianBytes 5 w.toNat = bytes40 w := rfl

theorem bigEndianBytes_four (w : BitVec 32) : bigEndianBytes 4 w.toNat = bytes32 w := rfl

/-- The word of format `F40` with fields `a`, `b` and `c` (R48). -/
def packF40 (a : BitVec 6) (b : BitVec 10) (c : BitVec 24) : BitVec 40 := a ++ b ++ c

/-- The word of format `F32` with fields `a`, `b` and `c` (R49). -/
def packF32 (a : BitVec 6) (b : BitVec 10) (c : BitVec 16) : BitVec 32 := a ++ b ++ c

theorem encodeF40_eq (op : Opcode) (b : BitVec 10) (c : BitVec 24) :
    encodeF40 op b c = bytes40 (packF40 op.row.value b c) := rfl

theorem encodeF32_eq (op : Opcode) (b : BitVec 10) (c : BitVec 16) :
    encodeF32 op b c = bytes32 (packF32 op.row.value b c) := rfl

section packF40
variable (a : BitVec 6) (b : BitVec 10) (c : BitVec 24)

theorem packF40_toNat : (packF40 a b c).toNat = (a.toNat * 2 ^ 10 + b.toNat) * 2 ^ 24 + c.toNat := by
  change (a ++ b ++ c : BitVec (6 + 10 + 24)).toNat = _
  simp only [toNat_append_eq]

/-- R51's formula for format `F40`. -/
theorem packF40_toNat_shifts : (packF40 a b c).toNat = (a.toNat <<< 34) ||| (b.toNat <<< 24) ||| c.toNat := by
  change (a ++ b ++ c : BitVec (6 + 10 + 24)).toNat = _
  rw [BitVec.toNat_append, BitVec.toNat_append, Nat.shiftLeft_or_distrib, ← Nat.shiftLeft_add]

@[simp] theorem packF40_fieldA : (packF40 a b c).extractLsb' 34 6 = a := by
  apply BitVec.eq_of_toNat_eq
  rw [BitVec.extractLsb'_toNat, packF40_toNat]
  omega

@[simp] theorem packF40_fieldB : (packF40 a b c).extractLsb' 24 10 = b := by
  apply BitVec.eq_of_toNat_eq
  rw [BitVec.extractLsb'_toNat, packF40_toNat]
  omega

@[simp] theorem packF40_fieldC : (packF40 a b c).extractLsb' 0 24 = c := by
  apply BitVec.eq_of_toNat_eq
  rw [BitVec.extractLsb'_toNat, packF40_toNat]
  omega

end packF40

section packF32
variable (a : BitVec 6) (b : BitVec 10) (c : BitVec 16)

theorem packF32_toNat : (packF32 a b c).toNat = (a.toNat * 2 ^ 10 + b.toNat) * 2 ^ 16 + c.toNat := by
  change (a ++ b ++ c : BitVec (6 + 10 + 16)).toNat = _
  simp only [toNat_append_eq]

/-- R51's formula for format `F32`. -/
theorem packF32_toNat_shifts : (packF32 a b c).toNat = (a.toNat <<< 26) ||| (b.toNat <<< 16) ||| c.toNat := by
  change (a ++ b ++ c : BitVec (6 + 10 + 16)).toNat = _
  rw [BitVec.toNat_append, BitVec.toNat_append, Nat.shiftLeft_or_distrib, ← Nat.shiftLeft_add]

@[simp] theorem packF32_fieldA : (packF32 a b c).extractLsb' 26 6 = a := by
  apply BitVec.eq_of_toNat_eq
  rw [BitVec.extractLsb'_toNat, packF32_toNat]
  omega

@[simp] theorem packF32_fieldB : (packF32 a b c).extractLsb' 16 10 = b := by
  apply BitVec.eq_of_toNat_eq
  rw [BitVec.extractLsb'_toNat, packF32_toNat]
  omega

@[simp] theorem packF32_fieldC : (packF32 a b c).extractLsb' 0 16 = c := by
  apply BitVec.eq_of_toNat_eq
  rw [BitVec.extractLsb'_toNat, packF32_toNat]
  omega

end packF32

theorem packF40_of_fields (w : BitVec 40) :
    packF40 (w.extractLsb' 34 6) (w.extractLsb' 24 10) (w.extractLsb' 0 24) = w := by
  apply BitVec.eq_of_toNat_eq
  simp only [packF40_toNat, BitVec.extractLsb'_toNat]
  omega

theorem packF32_of_fields (w : BitVec 32) :
    packF32 (w.extractLsb' 26 6) (w.extractLsb' 16 10) (w.extractLsb' 0 16) = w := by
  apply BitVec.eq_of_toNat_eq
  simp only [packF32_toNat, BitVec.extractLsb'_toNat]
  omega

end Sys2Proof
end

