-- ==== Sys2Proof/Proofs/FirstByte.lean ====
section
/-! The first byte alone selects the instruction (R54), and its look-ahead is field A of the whole word (R59). -/

namespace Sys2Proof

/-- The opcode map read the other way (R54, R55): four legal values, and none at the 60 others. -/
theorem opcodeOf?_eq_ite (a : BitVec 6) :
    opcodeOf? a =
      if a.toNat = 8 then some .bitreverse
      else if a.toNat = 31 then some .storeMem
      else if a.toNat = 58 then some .loadConst
      else if a.toNat = 63 then some .loadMem
      else none := by
  revert a
  decide

/-- The first bytes of an opcode value `n`, whose low two bits are the top of field B, are `4 n` to `4 n + 3`. -/
theorem lookahead_toNat_eq_iff (b0 : Byte) (n : Nat) :
    (lookahead b0).toNat = n ↔ 4 * n ≤ b0.toNat ∧ b0.toNat ≤ 4 * n + 3 := by
  rw [lookahead_toNat]
  omega

/-- The first bytes with an illegal opcode, counted a quarter of the range at a time. -/
theorem count_illegal_first_bytes :
    ((List.range 256).filter fun b0 => opcodeOf? (lookahead (BitVec.ofNat 8 b0)) = none).length = 240 := by
  rw [show 256 = 64 + 64 + 64 + 64 from rfl]
  simp only [List.range_add, List.filter_append, List.length_append]
  decide

/-- Settles O1: each range of first bytes holds the four bytes whose look-ahead is the opcode's value. -/
theorem firstByteSelectsInstruction : Obligations.FirstByteSelectsInstruction := by
  unfold Obligations.FirstByteSelectsInstruction
  refine ⟨fun b0 => ⟨?look, ?kind⟩, rfl, rfl, rfl, rfl, by decide, count_illegal_first_bytes, rfl, rfl, rfl, rfl⟩
  case look =>
    rw [lookahead_toNat, Nat.and_two_pow_sub_one_eq_mod _ 6]
    omega
  case kind => simp only [opcodeOf?_eq_ite, lookahead_toNat_eq_iff, Nat.reduceMul, Nat.reduceAdd]

/-- Settles O5: field A of a word is the top of its first byte, in both formats. -/
theorem lookaheadIsFieldAOfWord : Obligations.LookaheadIsFieldAOfWord := by
  unfold Obligations.LookaheadIsFieldAOfWord
  exact fun b0 b1 b2 b3 b4 => ⟨word40_fieldA b0 b1 b2 b3 b4, word32_fieldA b0 b1 b2 b3⟩

end Sys2Proof
end

