-- ==== Sys2Proof/Proofs/EncodingLaws.lean ====
section
/-! The laws of the encoding: `decode` and `encode` are inverse to each other (R58), and the encoded word has its row's
place in the opcode map (R53), the fields of R50 and R75 and the number of R51. -/

namespace Sys2Proof

@[simp] theorem decodeF40_bytes (mk : BitVec 10 → BitVec 24 → Instr) (w : BitVec 40) (rest : List Byte) :
    decodeF40 mk (w.extractLsb' 32 8)
        (w.extractLsb' 24 8 :: w.extractLsb' 16 8 :: w.extractLsb' 8 8 :: w.extractLsb' 0 8 :: rest) =
      .ok (mk (w.extractLsb' 24 10) (w.extractLsb' 0 24), rest) := by
  simp only [decodeF40, word40_of_bytes]

@[simp] theorem decodeF32_bytes (mk : BitVec 10 → BitVec 16 → Instr) (w : BitVec 32) (rest : List Byte) :
    decodeF32 mk (w.extractLsb' 24 8) (w.extractLsb' 16 8 :: w.extractLsb' 8 8 :: w.extractLsb' 0 8 :: rest) =
      .ok (mk (w.extractLsb' 16 10) (w.extractLsb' 0 16), rest) := by
  simp only [decodeF32, word32_of_bytes]

/-- The look-ahead of a word's first byte is the word's field A. -/
@[simp] theorem lookahead_first40 (w : BitVec 40) : lookahead (w.extractLsb' 32 8) = w.extractLsb' 34 6 := by
  rw [← word40_fieldA _ (w.extractLsb' 24 8) (w.extractLsb' 16 8) (w.extractLsb' 8 8) (w.extractLsb' 0 8),
    word40_of_bytes]

@[simp] theorem lookahead_first32 (w : BitVec 32) : lookahead (w.extractLsb' 24 8) = w.extractLsb' 26 6 := by
  rw [← word32_fieldA _ (w.extractLsb' 16 8) (w.extractLsb' 8 8) (w.extractLsb' 0 8), word32_of_bytes]

/-- R58 (a): whatever follows an encoding, it decodes to its instruction. -/
theorem decode_encode_append (i : Instr) (rest : List Byte) : decode (encode i ++ rest) = .ok (i, rest) := by
  cases i with
  | loadConst b c => simp [encode, encodeF40_eq, bytes40, decode_cons]
  | loadMem b c | storeMem b c | bitreverse b c => simp [encode, encodeF32_eq, bytes32, decode_cons]

/-- Bytes that decode in format `F40` are those of the word packed from the look-ahead and the decoded fields. -/
theorem decodeF40_inv {mk : BitVec 10 → BitVec 24 → Instr} {b0 : Byte} {tail rest : List Byte} {i : Instr}
    (h : decodeF40 mk b0 tail = .ok (i, rest)) :
    ∃ b c, i = mk b c ∧ b0 :: tail = bytes40 (packF40 (lookahead b0) b c) ++ rest := by
  unfold decodeF40 at h
  split at h
  case h_1 b1 b2 b3 b4 after =>
    obtain ⟨rfl, rfl⟩ : _ = i ∧ _ = rest := by simpa using h
    refine ⟨_, _, rfl, ?_⟩
    rw [← word40_fieldA b0 b1 b2 b3 b4, packF40_of_fields, bytes40_word40]
    rfl
  case h_2 => cases h

theorem decodeF32_inv {mk : BitVec 10 → BitVec 16 → Instr} {b0 : Byte} {tail rest : List Byte} {i : Instr}
    (h : decodeF32 mk b0 tail = .ok (i, rest)) :
    ∃ b c, i = mk b c ∧ b0 :: tail = bytes32 (packF32 (lookahead b0) b c) ++ rest := by
  unfold decodeF32 at h
  split at h
  case h_1 b1 b2 b3 after =>
    obtain ⟨rfl, rfl⟩ : _ = i ∧ _ = rest := by simpa using h
    refine ⟨_, _, rfl, ?_⟩
    rw [← word32_fieldA b0 b1 b2 b3, packF32_of_fields, bytes32_word32]
    rfl
  case h_2 => cases h

/-- R58 (d): what decodes is re-encoded to the same bytes. -/
theorem encode_append_of_decode {bytes rest : List Byte} {i : Instr} (h : decode bytes = .ok (i, rest)) :
    encode i ++ rest = bytes := by
  obtain ⟨b0, tail, rfl, hop, -⟩ := decode_ok h
  have hvalue : lookahead b0 = i.opcode.row.value := opcodeOf?_eq_some_iff.mp hop
  rw [decode_cons, hop] at h
  cases hkind : i.opcode with
  | loadConst =>
    rw [hkind] at h hvalue
    obtain ⟨b, c, rfl, hbytes⟩ := decodeF40_inv h
    rw [hbytes, hvalue]
    rfl
  | loadMem | storeMem | bitreverse =>
    rw [hkind] at h hvalue
    obtain ⟨b, c, rfl, hbytes⟩ := decodeF32_inv h
    rw [hbytes, hvalue]
    rfl

/-- Decoding is the inverse relation of encoding. -/
theorem decode_eq_ok_iff {bytes rest : List Byte} {i : Instr} :
    decode bytes = .ok (i, rest) ↔ encode i ++ rest = bytes :=
  ⟨encode_append_of_decode, fun h => h ▸ decode_encode_append i rest⟩

theorem decode_encode (i : Instr) : decode (encode i) = .ok (i, []) :=
  decode_eq_ok_iff.mpr (List.append_nil _)

/-- R58 (b). -/
@[simp] theorem encode_length (i : Instr) : (encode i).length = i.opcode.ilen := by
  obtain ⟨b0, tail, -, -, hlen⟩ := decode_ok (decode_encode i)
  simpa using hlen

theorem Opcode.ilen_eq_ite (op : Opcode) : op.ilen = if op = .loadConst then 5 else 4 := by
  cases op <;> rfl

/-- R58 (c). -/
theorem opcodeOf?_first_of_encode {i : Instr} {b0 : Byte} {tail : List Byte} (h : encode i = b0 :: tail) :
    opcodeOf? (lookahead b0) = some i.opcode := by
  obtain ⟨b0', tail', heq, hop, -⟩ := decode_ok (decode_encode i)
  obtain ⟨rfl, -⟩ := List.cons.inj (h.symm.trans heq)
  exact hop

theorem decodeF40_of_length {mk : BitVec 10 → BitVec 24 → Instr} {b0 : Byte} {tail : List Byte}
    (h : tail.length = 4) : ∃ i, decodeF40 mk b0 tail = .ok (i, []) := by
  match tail, h with
  | [_, _, _, _], _ => exact ⟨_, rfl⟩

theorem decodeF32_of_length {mk : BitVec 10 → BitVec 16 → Instr} {b0 : Byte} {tail : List Byte}
    (h : tail.length = 3) : ∃ i, decodeF32 mk b0 tail = .ok (i, []) := by
  match tail, h with
  | [_, _, _], _ => exact ⟨_, rfl⟩

/-- Bytes with a legal opcode and its length decode. -/
theorem decode_of_legal {b0 : Byte} {tail : List Byte} {op : Opcode} (hop : opcodeOf? (lookahead b0) = some op)
    (hlen : (b0 :: tail).length = op.ilen) : ∃ i, decode (b0 :: tail) = .ok (i, []) := by
  rw [decode_cons, hop]
  cases op with
  | loadConst => exact decodeF40_of_length (Nat.succ.inj hlen)
  | loadMem | storeMem | bitreverse => exact decodeF32_of_length (Nat.succ.inj hlen)

/-- The inverse round trip on the legal strings (R58 (d)). -/
theorem decode_legal {b0 : Byte} {tail : List Byte} {op : Opcode} (hop : opcodeOf? (lookahead b0) = some op)
    (hlen : (b0 :: tail).length = op.ilen) :
    ∃ i : Instr, i.opcode = op ∧ decode (b0 :: tail) = .ok (i, []) ∧ encode i = b0 :: tail := by
  obtain ⟨i, hdec⟩ := decode_of_legal hop hlen
  have henc : encode i = b0 :: tail := by simpa using encode_append_of_decode hdec
  exact ⟨i, Option.some.inj ((opcodeOf?_first_of_encode henc).symm.trans hop), hdec, henc⟩

/-- Settles O4: decoding is the inverse relation of encoding, and a decoded instruction has its opcode's length. -/
theorem encodingLaws : Obligations.EncodingLaws := by
  unfold Obligations.EncodingLaws
  refine ⟨decode_encode_append, fun i => ⟨encode_length i, ?length⟩, fun i b0 rest h => ?firstByte,
    fun b0 rest op => decode_legal, fun bytes rest i => encode_append_of_decode⟩
  case length => rw [encode_length, Opcode.ilen_eq_ite]
  case firstByte =>
    have hop := opcodeOf?_first_of_encode h
    exact ⟨opcodeOf?_eq_some_iff.mp hop, hop⟩

end Sys2Proof
end

