-- ==== Sys2Proof/Proofs/EncodedFields.lean ====
section
/-! The encoded word: its row of the opcode map (R53), its number (R51), and its fields by bytes and by bit ranges (R50,
R75). -/

namespace Sys2Proof
open Machine

/-- A field's place in a word, read through a mask (R53): `mask` bits from bit `k` on. -/
theorem and_shiftLeft_mask (n mask k : Nat) : n &&& (mask <<< k) = ((n >>> k) &&& mask) <<< k := by
  apply Nat.eq_of_testBit_eq
  intro j
  rcases Nat.lt_or_ge j k with hlow | hhigh
  · simp [Nat.testBit_shiftLeft, Nat.not_le.mpr hlow]
  · simp [Nat.testBit_shiftLeft, Nat.testBit_shiftRight, hhigh]

theorem and_mask (a : BitVec 6) : a.toNat &&& 0x3F = a.toNat := by
  rw [Nat.and_two_pow_sub_one_eq_mod a.toNat 6]
  exact Nat.mod_eq_of_lt a.isLt

section row
variable (op : Opcode) (b : BitVec 10)

theorem encodeF40_row (c : BitVec 24) :
    progReadNat (encodeF40 op b c) 0 5 &&& (0x3F <<< 34) = op.row.value.toNat <<< 34 ∧
      progReadNat (encodeF40 op b c) 0 1 = op.row.value.toNat * 4 + b.toNat / 256 ∧ b.toNat / 256 ≤ 3 := by
  refine ⟨?masked, ?firstByte, by omega⟩
  case masked =>
    have hA : (packF40 op.row.value b c).toNat >>> 34 = op.row.value.toNat := by
      rw [packF40_toNat]
      omega
    rw [encodeF40_eq, bytes40, progReadNat_five, word40_of_bytes, and_shiftLeft_mask, hA, and_mask]
  case firstByte =>
    rw [encodeF40_eq, bytes40, progReadNat_one, BitVec.extractLsb'_toNat, packF40_toNat]
    omega

theorem encodeF32_row (c : BitVec 16) :
    progReadNat (encodeF32 op b c) 0 4 &&& (0x3F <<< 26) = op.row.value.toNat <<< 26 ∧
      progReadNat (encodeF32 op b c) 0 1 = op.row.value.toNat * 4 + b.toNat / 256 ∧ b.toNat / 256 ≤ 3 := by
  refine ⟨?masked, ?firstByte, by omega⟩
  case masked =>
    have hA : (packF32 op.row.value b c).toNat >>> 26 = op.row.value.toNat := by
      rw [packF32_toNat]
      omega
    rw [encodeF32_eq, bytes32, progReadNat_four, word32_of_bytes, and_shiftLeft_mask, hA, and_mask]
  case firstByte =>
    rw [encodeF32_eq, bytes32, progReadNat_one, BitVec.extractLsb'_toNat, packF32_toNat]
    omega

end row

/-- Settles O2: each of the four opcodes has its format's row. -/
theorem encodedWordsMatchOpcodeMap : Obligations.EncodedWordsMatchOpcodeMap := by
  unfold Obligations.EncodedWordsMatchOpcodeMap
  exact ⟨fun b c => ⟨encode_length _, encodeF40_row .loadConst b c⟩,
    fun b c => ⟨encode_length _, encodeF32_row .loadMem b c⟩,
    fun b c => ⟨encode_length _, encodeF32_row .storeMem b c⟩,
    fun b c => ⟨encode_length _, encodeF32_row .bitreverse b c⟩, rfl, rfl, rfl, rfl⟩

/-- The instructions of format `F40` are the `LOAD_CONST`s (R48). -/
theorem encode_of_loadConst {i : Instr} (h : i.opcode = .loadConst) :
    ∃ c : BitVec 24, i.fieldC = c.toNat ∧ encode i = encodeF40 i.opcode i.fieldB c := by
  cases i with
  | loadConst b c => exact ⟨c, rfl, rfl⟩
  | loadMem | storeMem | bitreverse => cases h

/-- Every other instruction has format `F32` (R49). -/
theorem encode_of_ne_loadConst {i : Instr} (h : i.opcode ≠ .loadConst) :
    ∃ c : BitVec 16, i.fieldC = c.toNat ∧ encode i = encodeF32 i.opcode i.fieldB c := by
  cases i with
  | loadConst => exact absurd rfl h
  | loadMem b c | storeMem b c | bitreverse b c => exact ⟨c, rfl, rfl⟩

/-- Settles O7: the packed word is R51's number, and its bytes are that number's bytes. -/
theorem encodingIsShiftedFields : Obligations.EncodingIsShiftedFields := by
  unfold Obligations.EncodingIsShiftedFields
  intro i
  refine ⟨?bytes, Nat.le_pred_of_lt i.fieldB.isLt, ?range⟩
  case bytes =>
    split
    case isTrue h =>
      obtain ⟨c, hc, henc⟩ := encode_of_loadConst h
      rw [henc, hc, ← packF40_toNat_shifts, bigEndianBytes_five, encodeF40_eq]
    case isFalse h =>
      obtain ⟨c, hc, henc⟩ := encode_of_ne_loadConst h
      rw [henc, hc, ← packF32_toNat_shifts, bigEndianBytes_four, encodeF32_eq]
  case range =>
    split
    case isTrue h =>
      obtain ⟨c, hc, -⟩ := encode_of_loadConst h
      exact hc ▸ Nat.le_pred_of_lt c.isLt
    case isFalse h =>
      obtain ⟨c, hc, -⟩ := encode_of_ne_loadConst h
      exact hc ▸ Nat.le_pred_of_lt c.isLt

/-- R50's field B, as a number. -/
theorem fieldB_bytes (b0 b1 : Byte) :
    ((b0.toNat &&& 0x03) <<< 8) ||| b1.toNat = b0.toNat % 4 * 256 + b1.toNat := by
  rw [← Nat.shiftLeft_add_eq_or_of_lt b1.isLt, Nat.shiftLeft_eq, Nat.and_two_pow_sub_one_eq_mod b0.toNat 2]

/-- R50's field C of format `F32`, as a number. -/
theorem fieldC_bytes16 (b2 b3 : Byte) : (b2.toNat <<< 8) ||| b3.toNat = b2.toNat * 256 + b3.toNat := by
  rw [← Nat.shiftLeft_add_eq_or_of_lt b3.isLt, Nat.shiftLeft_eq]

/-- R50's field C of format `F40`, as a number. -/
theorem fieldC_bytes24 (b2 b3 b4 : Byte) :
    (b2.toNat <<< 16) ||| (b3.toNat <<< 8) ||| b4.toNat = (b2.toNat * 256 + b3.toNat) * 256 + b4.toNat := by
  have hhigh : b2.toNat <<< 16 ||| b3.toNat <<< 8 = (b2.toNat * 256 + b3.toNat) <<< 8 := by
    rw [← fieldC_bytes16, Nat.shiftLeft_or_distrib, ← Nat.shiftLeft_add]
  rw [hhigh, ← Nat.shiftLeft_add_eq_or_of_lt b4.isLt, Nat.shiftLeft_eq]

/-- The three fields of a packed word, by its bytes and by its bit ranges (R50, R75), format `F40`. -/
theorem fields_of_packF40 {a : BitVec 6} {b : BitVec 10} {c : BitVec 24} {b0 b1 b2 b3 b4 : Byte}
    (h : packF40 a b c = word40 b0 b1 b2 b3 b4) :
    a.toNat = b0.toNat >>> 2 ∧ b.toNat = ((b0.toNat &&& 0x03) <<< 8) ||| b1.toNat ∧
      c.toNat = (b2.toNat <<< 16) ||| (b3.toNat <<< 8) ||| b4.toNat ∧
      a.toNat = progReadNat [b0, b1, b2, b3, b4] 0 5 >>> 34 ∧
      b.toNat = (progReadNat [b0, b1, b2, b3, b4] 0 5 >>> 24) % 2 ^ 10 ∧
      c.toNat = progReadNat [b0, b1, b2, b3, b4] 0 5 % 2 ^ 24 := by
  have hnum := congrArg BitVec.toNat h
  rw [packF40_toNat, word40_toNat] at hnum
  rw [fieldB_bytes, fieldC_bytes24, progReadNat_five, word40_toNat]
  omega

/-- The three fields of a packed word, by its bytes and by its bit ranges (R50, R75), format `F32`. -/
theorem fields_of_packF32 {a : BitVec 6} {b : BitVec 10} {c : BitVec 16} {b0 b1 b2 b3 : Byte}
    (h : packF32 a b c = word32 b0 b1 b2 b3) :
    a.toNat = b0.toNat >>> 2 ∧ b.toNat = ((b0.toNat &&& 0x03) <<< 8) ||| b1.toNat ∧
      c.toNat = (b2.toNat <<< 8) ||| b3.toNat ∧
      a.toNat = progReadNat [b0, b1, b2, b3] 0 4 >>> 26 ∧
      b.toNat = (progReadNat [b0, b1, b2, b3] 0 4 >>> 16) % 2 ^ 10 ∧
      c.toNat = progReadNat [b0, b1, b2, b3] 0 4 % 2 ^ 16 := by
  have hnum := congrArg BitVec.toNat h
  rw [packF32_toNat, word32_toNat] at hnum
  rw [fieldB_bytes, fieldC_bytes16, progReadNat_four, word32_toNat]
  omega

/-- Five bytes that begin with a word's bytes are that word. -/
theorem bytes40_append_eq {w : BitVec 40} {b0 b1 b2 b3 b4 : Byte} {after rest : List Byte}
    (h : bytes40 w ++ after = b0 :: b1 :: b2 :: b3 :: b4 :: rest) : after = rest ∧ w = word40 b0 b1 b2 b3 b4 := by
  obtain ⟨rfl, rfl, rfl, rfl, rfl, rfl⟩ := by simpa [bytes40] using h
  exact ⟨rfl, (word40_of_bytes w).symm⟩

theorem bytes32_append_eq {w : BitVec 32} {b0 b1 b2 b3 : Byte} {after rest : List Byte}
    (h : bytes32 w ++ after = b0 :: b1 :: b2 :: b3 :: rest) : after = rest ∧ w = word32 b0 b1 b2 b3 := by
  obtain ⟨rfl, rfl, rfl, rfl, rfl⟩ := by simpa [bytes32] using h
  exact ⟨rfl, (word32_of_bytes w).symm⟩

/-- Settles O6: what decodes is an encoding, so its word is the word packed from the instruction's fields. -/
theorem fieldsByByteAndByWord : Obligations.FieldsByByteAndByWord := by
  unfold Obligations.FieldsByByteAndByWord
  refine ⟨fun b0 b1 b2 b3 b4 rest after i hdec hop => ?f40, fun b0 b1 b2 b3 rest after i hdec hop => ?f32⟩
  case f40 =>
    obtain ⟨c, hc, henc⟩ := encode_of_loadConst hop
    have hbytes := encode_append_of_decode hdec
    rw [henc, encodeF40_eq] at hbytes
    obtain ⟨hrest, hword⟩ := bytes40_append_eq hbytes
    rw [hc]
    exact ⟨hrest, fields_of_packF40 hword⟩
  case f32 =>
    obtain ⟨c, hc, henc⟩ := encode_of_ne_loadConst hop
    have hbytes := encode_append_of_decode hdec
    rw [henc, encodeF32_eq] at hbytes
    obtain ⟨hrest, hword⟩ := bytes32_append_eq hbytes
    rw [hc]
    exact ⟨hrest, fields_of_packF32 hword⟩

end Sys2Proof
end

