-- ==== Sys2Proof/Proofs/AssemblerText.lean ====
section
/-! The assembler's text (section 8 of the encoding's rules): splitting, trimming and numerals, and the round trip from a
printed line to its source instruction. -/

namespace Sys2Proof.Asm

/-- The digit character of a value below ten is a digit with that value. -/
theorem digitChar_spec : ∀ d < 10, (Char.ofNat ('0'.toNat + d)).isDigit = true ∧
    (Char.ofNat ('0'.toNat + d)).toNat - '0'.toNat = d := by
  decide

/-- The value of a numeral whose first digits, already read, have the value `n`. -/
def readDigits (n : Nat) (cs : List Char) : Nat := cs.foldl (fun n c => n * 10 + (c.toNat - '0'.toNat)) n

theorem numeralValue_eq_readDigits (cs : List Char) : numeralValue cs = readDigits 0 cs := rfl

theorem readDigits_cons (n : Nat) (c : Char) (cs : List Char) :
    readDigits n (c :: cs) = readDigits (n * 10 + (c.toNat - '0'.toNat)) cs := by
  rw [readDigits, List.foldl_cons, readDigits]

/-- Reading the digits of `n` and then `acc` is reading `acc` from the value `n` on. -/
theorem readDigits_decimalDigits {fuel n : Nat} (hfuel : n < fuel) (acc : List Char) :
    readDigits 0 (decimalDigits fuel n acc) = readDigits n acc := by
  induction fuel generalizing n acc with
  | zero => omega
  | succ fuel ih =>
    have hdigit := (digitChar_spec (n % 10) (by omega)).2
    rw [decimalDigits]
    split
    case isTrue hlast =>
      rw [readDigits_cons, hdigit, Nat.mod_eq_of_lt hlast, Nat.zero_mul, Nat.zero_add]
    case isFalse =>
      rw [ih (by omega), readDigits_cons, hdigit, Nat.div_add_mod']

theorem isDigit_of_mem_decimalDigits {fuel n : Nat} {acc : List Char} (hacc : ∀ c ∈ acc, c.isDigit = true) :
    ∀ c ∈ decimalDigits fuel n acc, c.isDigit = true := by
  induction fuel generalizing n acc with
  | zero => exact hacc
  | succ fuel ih =>
    have hacc' : ∀ c ∈ Char.ofNat ('0'.toNat + n % 10) :: acc, c.isDigit = true :=
      List.forall_mem_cons.mpr ⟨(digitChar_spec (n % 10) (by omega)).1, hacc⟩
    rw [decimalDigits]
    split
    · exact hacc'
    · exact ih hacc'

theorem isDigit_of_mem_printNat {n : Nat} {c : Char} (h : c ∈ printNat n) : c.isDigit = true :=
  isDigit_of_mem_decimalDigits (by simp) c h

theorem decimalDigits_ne_nil {fuel n : Nat} {acc : List Char} (hacc : acc ≠ []) : decimalDigits fuel n acc ≠ [] := by
  induction fuel generalizing n acc with
  | zero => exact hacc
  | succ fuel ih =>
    rw [decimalDigits]
    split
    · exact List.cons_ne_nil _ _
    · exact ih (List.cons_ne_nil _ _)

theorem printNat_ne_nil (n : Nat) : printNat n ≠ [] := by
  rw [printNat, decimalDigits]
  split
  · exact List.cons_ne_nil _ _
  · exact decimalDigits_ne_nil (List.cons_ne_nil _ _)

/-- R61: the printed numeral of a number has that value. -/
@[simp] theorem numeral?_printNat (n : Nat) : numeral? (printNat n) = some n := by
  have hdigits : (printNat n).all Char.isDigit = true := List.all_eq_true.mpr fun c => isDigit_of_mem_printNat
  have hvalue : readDigits 0 (printNat n) = n := readDigits_decimalDigits (Nat.lt_succ_self n) []
  rw [numeral?, if_pos ⟨printNat_ne_nil n, hdigits⟩, numeralValue_eq_readDigits, hvalue]

/-- Text that does not begin with a minus sign is no negative operand. -/
theorem operand?_of_isDigit {cs : List Char} (h : ∀ c ∈ cs, c.isDigit = true) :
    operand? cs = (numeral? cs).map .numeral := by
  unfold operand?
  split
  case h_1 => exact absurd (h '-' (by simp)) (by decide)
  case h_2 => rfl

@[simp] theorem operand?_printOperand (o : Operand) : operand? (printOperand o) = some o := by
  cases o with
  | numeral n => simp [printOperand, operand?_of_isDigit fun c => isDigit_of_mem_printNat]
  | negative n => simp [printOperand, operand?]

theorem printOperand_ne_nil (o : Operand) : printOperand o ≠ [] := by
  cases o with
  | numeral n => exact printNat_ne_nil n
  | negative n => exact List.cons_ne_nil _ _

/-- A digit is no separator. -/
theorem not_separator_of_isDigit {c : Char} (h : c.isDigit = true) : c.isWhitespace = false ∧ c ≠ ',' := by
  have hne {sep : Char} (hsep : sep.isDigit = false) : c ≠ sep := by
    rintro rfl
    exact Bool.false_ne_true (hsep.symm.trans h)
  refine ⟨?_, hne rfl⟩
  rw [Char.isWhitespace, decide_eq_false (hne rfl), decide_eq_false (hne rfl), decide_eq_false (hne rfl),
    decide_eq_false (hne rfl)]
  rfl

/-- A printed operand holds no separator: neither white space nor a comma (R61). -/
theorem not_separator_of_mem_printOperand {o : Operand} {c : Char} (h : c ∈ printOperand o) :
    c.isWhitespace = false ∧ c ≠ ',' := by
  cases o with
  | numeral n => exact not_separator_of_isDigit (isDigit_of_mem_printNat h)
  | negative n =>
    obtain rfl | hdigit := List.mem_cons.mp h
    · decide
    · exact not_separator_of_isDigit (isDigit_of_mem_printNat hdigit)

theorem splitOn_of_not_mem {sep : Char} {cs : List Char} (h : sep ∉ cs) : splitOn sep cs = [cs] := by
  induction cs with
  | nil => rfl
  | cons c cs ih =>
    obtain ⟨hc, hcs⟩ := List.ne_and_not_mem_of_not_mem_cons h
    rw [splitOn, if_neg (Ne.symm hc), ih hcs]

/-- The first separator of a text ends its first piece. -/
theorem splitOn_append_cons {sep : Char} {cs : List Char} (h : sep ∉ cs) (rest : List Char) :
    splitOn sep (cs ++ sep :: rest) = cs :: splitOn sep rest := by
  induction cs with
  | nil => rw [List.nil_append, splitOn, if_pos rfl]
  | cons c cs ih =>
    obtain ⟨hc, hcs⟩ := List.ne_and_not_mem_of_not_mem_cons h
    rw [List.cons_append, splitOn, if_neg (Ne.symm hc), ih hcs]

theorem trimLeft_eq_self {cs : List Char} (h : ∀ c ∈ cs.head?, c.isWhitespace = false) : trimLeft cs = cs := by
  cases cs with
  | nil => rfl
  | cons c cs => simp [trimLeft, h c rfl]

/-- Text that neither begins nor ends with white space is its own trimmed form. -/
theorem trim_eq_self {cs : List Char} (hhead : ∀ c ∈ cs.head?, c.isWhitespace = false)
    (hlast : ∀ c ∈ cs.getLast?, c.isWhitespace = false) : trim cs = cs := by
  rw [trim, trimLeft_eq_self hhead, trimLeft_eq_self (by rwa [List.head?_reverse]), List.reverse_reverse]

theorem trim_printOperand (o : Operand) : trim (printOperand o) = printOperand o :=
  trim_eq_self (fun _ hc => (not_separator_of_mem_printOperand (List.mem_of_mem_head? hc)).1)
    (fun _ hc => (not_separator_of_mem_printOperand (List.mem_of_getLast? hc)).1)

/-- White space before a text is trimmed away (R61). -/
theorem trim_space_cons (cs : List Char) : trim (' ' :: cs) = trim cs := rfl

theorem mnemonic_not_whitespace (op : Opcode) : ∀ c ∈ mnemonic op, c.isWhitespace = false := by
  cases op <;> simp [mnemonic]

theorem mnemonic_ne_nil (op : Opcode) : mnemonic op ≠ [] := by
  cases op <;> exact List.cons_ne_nil _ _

@[simp] theorem mnemonicOf?_mnemonic (op : Opcode) : mnemonicOf? (mnemonic op) = some op := by
  cases op <;> rfl

/-- R60: the line of an instruction is neither blank nor a comment. -/
theorem isSkipped_mnemonic_append (op : Opcode) (rest : List Char) : isSkipped (mnemonic op ++ rest) = false := by
  cases op <;> rfl

/-- R62: the mnemonic of a line ends at its first white space. -/
theorem takeWhile_mnemonic (op : Opcode) (rest : List Char) :
    (mnemonic op ++ ' ' :: rest).takeWhile (fun c => !c.isWhitespace) = mnemonic op := by
  rw [List.takeWhile_append_of_pos fun c hc => by simp [mnemonic_not_whitespace op c hc]]
  exact List.append_nil _

theorem dropWhile_mnemonic (op : Opcode) (rest : List Char) :
    (mnemonic op ++ ' ' :: rest).dropWhile (fun c => !c.isWhitespace) = ' ' :: rest := by
  rw [List.dropWhile_append_of_pos fun c hc => by simp [mnemonic_not_whitespace op c hc]]
  rfl

theorem printSource_eq (src : Source) :
    printSource src = mnemonic src.op ++ ' ' :: (printOperand src.b ++ ',' :: printOperand src.c) := by
  simp [printSource]

/-- A printed line begins with its mnemonic's first letter and ends with its last operand's last character. -/
theorem trim_printSource (src : Source) : trim (printSource src) = printSource src := by
  refine trim_eq_self ?head ?last
  case head =>
    intro c hc
    rw [printSource_eq, List.head?_append_of_ne_nil _ (mnemonic_ne_nil _)] at hc
    exact mnemonic_not_whitespace _ c (List.mem_of_mem_head? hc)
  case last =>
    intro c hc
    rw [printSource, List.append_cons, List.getLast?_append,
      List.getLast?_eq_some_getLast (printOperand_ne_nil _)] at hc
    obtain rfl : _ = c := Option.some.inj hc
    exact (not_separator_of_mem_printOperand (List.getLast_mem _)).1

/-- A printed line has its two operands as pieces. -/
theorem splitOn_operands (b c : Operand) :
    splitOn ',' (' ' :: (printOperand b ++ ',' :: printOperand c)) = [' ' :: printOperand b, printOperand c] := by
  have hcomma (o : Operand) : ',' ∉ printOperand o := fun h => (not_separator_of_mem_printOperand h).2 rfl
  have hb : ',' ∉ ' ' :: printOperand b := List.not_mem_cons_of_ne_of_not_mem (by decide) (hcomma b)
  rw [← List.cons_append, splitOn_append_cons hb, splitOn_of_not_mem (hcomma c)]

/-- A printed line parses to the instruction of the range check, and fails where that refuses (R64, R66). -/
theorem parseInstr_printSource (src : Source) :
    parseInstr (printSource src) = src.toInstr?.elim (.error .fieldOverflow) .ok := by
  simp only [parseInstr, trim_printSource]
  simp only [printSource_eq, takeWhile_mnemonic, dropWhile_mnemonic, mnemonicOf?_mnemonic, splitOn_operands,
    trim_space_cons, trim_printOperand, operand?_printOperand]
  cases src.toInstr? <;> rfl

theorem toInstr?_toSource (i : Instr) : i.toSource.toInstr? = some i := by
  cases i with
  | loadConst b c => exact (Laws.Fields.loadConst b c).2
  | loadMem b c => exact (Laws.Fields.loadMem b c).2
  | storeMem b c => exact (Laws.Fields.storeMem b c).2
  | bitreverse b c => exact (Laws.Fields.bitreverse b c).2

theorem parseInstr_printInstr (i : Instr) : parseInstr (printInstr i) = .ok i := by
  rw [printInstr, parseInstr_printSource, toInstr?_toSource]
  rfl

theorem isSkipped_printInstr (i : Instr) : isSkipped (printInstr i) = false := by
  rw [printInstr, printSource_eq, isSkipped_mnemonic_append]

/-- Lines that parse one by one, skipped ones aside, parse as a text. -/
theorem parseLines_of_forall₂ {lines : List (List Char)} {is : List Instr}
    (h : List.Forall₂ (fun line i => parseInstr line = .ok i) (lines.filter fun line => !isSkipped line) is) (n : Nat) :
    parseLines n lines = .ok is := by
  induction lines generalizing is n with
  | nil =>
    cases h
    rfl
  | cons line lines ih =>
    rw [parseLines]
    split
    case isTrue hskip => exact ih (by simpa [hskip] using h) _
    case isFalse hline =>
      rw [List.filter_cons_of_pos (by simpa using hline)] at h
      cases h with
      | cons hparse hrest => simp only [hparse, ih hrest]

/-- Settles O11: lines that parse one by one assemble to their instructions, and a printed line parses. -/
theorem assemblyConcatenatesEncodings : Obligations.AssemblyConcatenatesEncodings := by
  unfold Obligations.AssemblyConcatenatesEncodings
  refine ⟨fun lines is h => ⟨⟨program is, is.map logRecord⟩, ?assembles, rfl, List.length_map _, ?log, ?empty⟩,
    fun i => ⟨isSkipped_printInstr i, parseInstr_printInstr i⟩⟩
  case assembles => rw [assemble, parseLines_of_forall₂ h]
  case log =>
    intro k i hi
    rw [List.getElem?_map, hi]
    rfl
  case empty =>
    rintro rfl
    rfl

end Sys2Proof.Asm
end

