-- ==== Sys2Proof/Proofs/FetchLaws.lean ====
section
/-! The fetch of a RUNNING core, classified by the first byte alone: an unknown opcode (R71), a known one that does not
fit the rest of the program (R73), or an instruction (R75); and the step that each of the three leads to. -/

namespace Sys2Proof

/-- R55: the illegal opcode values are those outside the four of the opcode map. -/
theorem opcodeOf?_eq_none_iff {a : BitVec 6} :
    opcodeOf? a = none ↔ a.toNat ≠ 58 ∧ a.toNat ≠ 63 ∧ a.toNat ≠ 31 ∧ a.toNat ≠ 8 := by
  revert a
  decide

/-- R72: the length of an instruction, read off its opcode value. -/
theorem Opcode.ilen_eq_ite_value (op : Opcode) : op.ilen = if op.row.value.toNat = 58 then 5 else 4 := by
  cases op <;> rfl

/-- The legal opcode values, each with its length (R53). -/
theorem exists_opcode_of_value {a : BitVec 6} {n : Nat}
    (h : a.toNat = 58 ∧ n = 5 ∨ (a.toNat = 63 ∨ a.toNat = 31 ∨ a.toNat = 8) ∧ n = 4) :
    ∃ op, opcodeOf? a = some op ∧ op.ilen = n := by
  rw [opcodeOf?_eq_ite]
  obtain ⟨ha, rfl⟩ | ⟨ha | ha | ha, rfl⟩ := h
  · exact ⟨.loadConst, by simp [ha], rfl⟩
  · exact ⟨.loadMem, by simp [ha], rfl⟩
  · exact ⟨.storeMem, by simp [ha], rfl⟩
  · exact ⟨.bitreverse, by simp [ha], rfl⟩

section decode
variable {b0 : Byte} {tail : List Byte} {op : Opcode}

theorem decode_of_unknown (hop : opcodeOf? (lookahead b0) = none) :
    decode (b0 :: tail) = .error (.unknownOpcode (lookahead b0)) := by
  rw [decode_cons, hop]

/-- R73: bytes shorter than the instruction that the first of them selects are truncated. -/
theorem decode_of_truncated (hop : opcodeOf? (lookahead b0) = some op) (hlen : (b0 :: tail).length < op.ilen) :
    decode (b0 :: tail) = .error (.truncated (lookahead b0)) := by
  rw [decode_cons, hop]
  cases op with
  | loadConst => exact decodeF40_short (Nat.lt_of_succ_lt_succ hlen)
  | loadMem | storeMem | bitreverse => exact decodeF32_short (Nat.lt_of_succ_lt_succ hlen)

/-- R73: bytes as long as the instruction that the first of them selects, or longer, decode. -/
theorem decode_of_fits (hop : opcodeOf? (lookahead b0) = some op) (hlen : op.ilen ≤ (b0 :: tail).length) :
    ∃ i rest, decode (b0 :: tail) = .ok (i, rest) := by
  obtain ⟨n, hn⟩ : ∃ n, op.ilen = n + 1 := by cases op <;> exact ⟨_, rfl⟩
  have hlegal : (b0 :: tail.take n).length = op.ilen := by
    simp only [List.length_cons, List.length_take] at hlen ⊢
    omega
  obtain ⟨i, -, -, henc⟩ := decode_legal hop hlegal
  refine ⟨i, tail.drop n, ?_⟩
  rw [decode_eq_ok_iff, henc, List.cons_append, List.take_append_drop]

end decode

namespace Machine

section fetch
variable {s : State} {op : Opcode}

/-- R70: the bytes from `pc` on begin with the first byte. -/
theorem drop_pc_eq_cons (hpc : s.pc.toNat < s.prog.length) :
    s.prog.drop s.pc.toNat = s.firstByte :: s.prog.drop (s.pc.toNat + 1) := by
  rw [List.drop_eq_getElem_cons hpc, State.firstByte, List.getElem?_eq_getElem hpc, Option.getD_some]

theorem length_drop_pc (hpc : s.pc.toNat < s.prog.length) :
    (s.firstByte :: s.prog.drop (s.pc.toNat + 1)).length = s.prog.length - s.pc.toNat := by
  rw [← drop_pc_eq_cons hpc, List.length_drop]

theorem fetch_of_unknown (hpc : s.pc.toNat < s.prog.length) (hop : opcodeOf? (lookahead s.firstByte) = none) :
    fetch s = .error (.unknownOpcode (lookahead s.firstByte)) := by
  rw [fetch, drop_pc_eq_cons hpc, decode_of_unknown hop]
  rfl

theorem fetch_of_truncated (hpc : s.pc.toNat < s.prog.length) (hop : opcodeOf? (lookahead s.firstByte) = some op)
    (hlen : s.prog.length < s.pc.toNat + op.ilen) :
    fetch s = .error (.truncated (lookahead s.firstByte)) := by
  rw [fetch, drop_pc_eq_cons hpc, decode_of_truncated hop (by rw [length_drop_pc hpc]; omega)]
  rfl

theorem fetch_of_fits (hpc : s.pc.toNat < s.prog.length) (hop : opcodeOf? (lookahead s.firstByte) = some op)
    (hlen : s.pc.toNat + op.ilen ≤ s.prog.length) : ∃ i, fetch s = .ok i := by
  obtain ⟨i, rest, hdec⟩ := decode_of_fits hop
    (show op.ilen ≤ (s.firstByte :: s.prog.drop (s.pc.toNat + 1)).length by rw [length_drop_pc hpc]; omega)
  refine ⟨i, ?_⟩
  rw [fetch, drop_pc_eq_cons hpc, hdec]
  rfl

/-- R75: the bytes of a fetched instruction are its encoding. -/
theorem take_drop_pc_of_fetch {i : Instr} (hf : fetch s = .ok i) :
    (s.prog.drop s.pc.toNat).take i.opcode.ilen = encode i := by
  unfold fetch at hf
  cases hdec : decode (s.prog.drop s.pc.toNat) with
  | error e => simp [hdec, Except.map] at hf
  | ok r =>
    obtain ⟨j, rest⟩ := r
    obtain rfl : j = i := by simpa [hdec, Except.map] using hf
    rw [← encode_append_of_decode hdec, ← encode_length, List.take_left]

end fetch

section step
variable {s : State} {op : Opcode}

theorem step_of_unknown (hfits : s.ProgFits) (hrun : s.status = .running)
    (hop : opcodeOf? (lookahead s.firstByte) = none) :
    step s = .next (s.raise .unknownOpcode ((lookahead s.firstByte).setWidth 32)) := by
  rw [step_of_running hfits hrun, fetch_of_unknown (status_running_iff.mp hrun).2 hop]
  rfl

theorem step_of_truncated (hfits : s.ProgFits) (hrun : s.status = .running)
    (hop : opcodeOf? (lookahead s.firstByte) = some op) (hlen : s.prog.length < s.pc.toNat + op.ilen) :
    step s = .next (s.raise .truncatedInstruction ((lookahead s.firstByte).setWidth 32)) := by
  rw [step_of_running hfits hrun, fetch_of_truncated (status_running_iff.mp hrun).2 hop hlen]
  rfl

theorem step_of_fetch {i : Instr} (hfits : s.ProgFits) (hrun : s.status = .running) (hf : fetch s = .ok i) :
    step s = exec i s := by
  rw [step_of_running hfits hrun, hf]

/-- The three ways of a RUNNING core's step, in the order of R79: the first byte selects no instruction, or one that
does not fit the rest of the program, or one that is fetched and run. -/
theorem running_step_cases (hfits : s.ProgFits) (hrun : s.status = .running) :
    (opcodeOf? (lookahead s.firstByte) = none ∧
      step s = .next (s.raise .unknownOpcode ((lookahead s.firstByte).setWidth 32))) ∨
    (∃ op, opcodeOf? (lookahead s.firstByte) = some op ∧ s.prog.length < s.pc.toNat + op.ilen ∧
      step s = .next (s.raise .truncatedInstruction ((lookahead s.firstByte).setWidth 32))) ∨
    (∃ i, fetch s = .ok i ∧ step s = exec i s) := by
  cases hop : opcodeOf? (lookahead s.firstByte) with
  | none => exact .inl ⟨rfl, step_of_unknown hfits hrun hop⟩
  | some op =>
    rcases Nat.lt_or_ge s.prog.length (s.pc.toNat + op.ilen) with hshort | hfull
    · exact .inr (.inl ⟨op, rfl, hshort, step_of_truncated hfits hrun hop hshort⟩)
    · obtain ⟨i, hf⟩ := fetch_of_fits (status_running_iff.mp hrun).2 hop hfull
      exact .inr (.inr ⟨i, hf, step_of_fetch hfits hrun hf⟩)

end step

/-- R99: raising a fault meets its frame. -/
theorem State.raised_raise (s : State) (cause : FaultCause) (info : Word) : s.Raised (s.raise cause info) cause info :=
  ⟨rfl, rfl, rfl, rfl, rfl, rfl, rfl⟩

theorem State.raise_status {s : State} {cause : FaultCause} (info : Word) (h : cause ≠ .none) :
    (s.raise cause info).status = .faulted :=
  status_faulted_iff.mpr h

/-- R69: a RUNNING core has a next state. -/
theorem step_next_of_running {s : State} (hfits : s.ProgFits) (hrun : s.status = .running) :
    ∃ t, step s = .next t := by
  obtain ⟨-, hstep⟩ | ⟨op, -, -, hstep⟩ | ⟨i, -, hstep⟩ := running_step_cases hfits hrun
  · exact ⟨_, hstep⟩
  · exact ⟨_, hstep⟩
  · obtain ⟨index, hexec⟩ | ⟨dst, v, hexec⟩ := exec_cases i s
    · exact ⟨_, hstep.trans hexec⟩
    · exact ⟨_, hstep.trans hexec⟩

/-- R69: a step records one fault or is the whole meaning of the fetched instruction. -/
theorem step_faults_or_executes {s t : State} (h : step s = .next t) :
    t.faultCause ≠ .none ∨ ∃ i, fetch s = .ok i ∧ exec i s = .next t := by
  obtain ⟨hfits, hrun⟩ := running_of_step_next h
  rw [step_of_running hfits hrun] at h
  cases hf : fetch s with
  | error e =>
    rw [hf] at h
    obtain ⟨cause, info, hcause, rfl⟩ := raiseDecodeError_next h
    exact .inl hcause
  | ok i =>
    rw [hf] at h
    exact .inr ⟨i, rfl, h⟩

/-- Settles O15: a RUNNING core's step is one of the three of `running_step_cases`, each with a next state. -/
theorem stepExistsExactlyWhenRunning : Obligations.StepExistsExactlyWhenRunning := by
  unfold Obligations.StepExistsExactlyWhenRunning
  refine fun s hfits => ⟨?_, step_of_halted hfits, step_of_faulted hfits, fun t => step_faults_or_executes⟩
  rw [← status_running_iff]
  exact ⟨fun ⟨_, h⟩ => (running_of_step_next h).2, step_next_of_running hfits⟩

/-- Settles O20: the first byte alone selects no instruction, so its look-ahead is raised. -/
theorem unknownOpcodeStops : Obligations.UnknownOpcodeStops := by
  unfold Obligations.UnknownOpcodeStops
  refine ⟨rfl, fun s hfits hnone hpc hvalue => ?_⟩
  have hop : opcodeOf? (lookahead s.firstByte) = none := opcodeOf?_eq_none_iff.mpr (by simpa using hvalue)
  rw [BitVec.ofNat_toNat]
  exact ⟨_, step_of_unknown hfits (status_running_iff.mpr ⟨hnone, hpc⟩) hop, s.raised_raise _ _,
    State.raise_status _ (by simp)⟩

/-- An instruction of a core with no fault recorded raises no fetch fault. -/
theorem exec_raises_no_fetch_fault (i : Instr) {s : State} (hnone : s.faultCause = .none) :
    ∃ t, exec i s = .next t ∧ t.faultCause ≠ .truncatedInstruction ∧ t.faultCause ≠ .unknownOpcode := by
  obtain ⟨index, hexec⟩ | ⟨dst, v, hexec⟩ := exec_cases i s
  · exact ⟨_, hexec, by simp⟩
  · exact ⟨_, hexec, by simp [hnone]⟩

/-- Settles O21: an instruction that does not fit raises its look-ahead; one that fits is fetched and run. -/
theorem truncationStops : Obligations.TruncationStops := by
  unfold Obligations.TruncationStops
  refine ⟨rfl, fun s n hfits hnone hpc hvalue => ?_⟩
  have hrun : s.status = .running := status_running_iff.mpr ⟨hnone, hpc⟩
  obtain ⟨op, hop, rfl⟩ := exists_opcode_of_value hvalue
  refine ⟨fun hshort => ⟨by omega, ?truncated⟩, fun hfull => ?fits⟩
  case truncated =>
    rw [BitVec.ofNat_toNat]
    exact ⟨_, step_of_truncated hfits hrun hop hshort, s.raised_raise _ _, State.raise_status _ (by simp)⟩
  case fits =>
    obtain ⟨i, hf⟩ := fetch_of_fits hpc hop hfull
    rw [step_of_fetch hfits hrun hf]
    exact exec_raises_no_fetch_fault i hnone

/-- Settles O24: a raised fault keeps `pc`, and a completed instruction moves it past its own bytes. -/
theorem pcAdvancesByLength : Obligations.PcAdvancesByLength := by
  unfold Obligations.PcAdvancesByLength
  intro s t h
  obtain ⟨cause, info, hcause, rfl⟩ | ⟨i, dst, v, hf, rfl⟩ := step_raises_or_completes h
  · exact ⟨fun _ => s.raise_pc cause info, fun hok => absurd hok hcause⟩
  · obtain ⟨hfits, hrun⟩ := running_of_step_next h
    have hnone : (s.complete i dst v).faultCause = .none := (status_running_iff.mp hrun).1
    exact ⟨fun hfault => absurd hnone hfault,
      fun _ => ⟨⟨i.opcode, (fetch_ok hf).1, complete_pc_toNat hfits hf dst v⟩,
        fun hlt => status_running_iff.mpr ⟨hnone, hlt⟩, fun hend => status_halted_iff.mpr ⟨hnone, hend.ge⟩⟩⟩

end Machine

end Sys2Proof
end

