-- ==== Sys2Proof/Proofs/WholeStepRule.lean ====
section
/-! The step is R79's `Step()`: the three ways of a RUNNING core's step, met again in the transcription in natural
numbers. -/

namespace Sys2Proof.Machine

/-- R48: the fields of format `F40`, as `Step()` computes them from the encoding's big-endian number. -/
theorem fields_of_encodeF40 (op : Opcode) (b : BitVec 10) (c : BitVec 24) :
    progReadNat (encodeF40 op b c) 0 5 / 2 ^ 24 % 1024 = b.toNat ∧
      progReadNat (encodeF40 op b c) 0 5 % 2 ^ 24 = c.toNat := by
  rw [encodeF40_eq, bytes40, progReadNat_five, word40_of_bytes, packF40_toNat]
  omega

/-- R49: the fields of format `F32`, as `Step()` computes them from the encoding's big-endian number. -/
theorem fields_of_encodeF32 (op : Opcode) (b : BitVec 10) (c : BitVec 16) :
    progReadNat (encodeF32 op b c) 0 4 / 2 ^ 16 % 1024 = b.toNat ∧
      progReadNat (encodeF32 op b c) 0 4 % 2 ^ 16 = c.toNat := by
  rw [encodeF32_eq, bytes32, progReadNat_four, word32_of_bytes, packF32_toNat]
  omega

/-- R77: the fields that `Step()` computes from an encoding dispatch to its instruction. -/
theorem dispatch79_encode (i : Instr) :
    dispatch79 i.opcode.row.value.toNat
        (progReadNat (encode i) 0 i.opcode.ilen / 2 ^ (8 * i.opcode.ilen - 16) % 1024)
        (progReadNat (encode i) 0 i.opcode.ilen % 2 ^ (8 * i.opcode.ilen - 16)) = some i := by
  cases i with
  | loadConst b c =>
    simp only [Instr.opcode, encode, ilen_loadConst, Nat.reduceMul, Nat.reduceSub, fields_of_encodeF40]
    simp [dispatch79, Opcode.row]
  | loadMem b c | storeMem b c | bitreverse b c =>
    simp only [Instr.opcode, encode, ilen_loadMem, ilen_storeMem, ilen_bitreverse, Nat.reduceMul, Nat.reduceSub,
      fields_of_encodeF32]
    simp [dispatch79, Opcode.row]

section running
variable {s : State}

/-- R70: the opcode of `Step()`, a quotient of the first byte, is the look-ahead. -/
theorem progReadNat_pc_one (hpc : s.pc.toNat < s.prog.length) :
    progReadNat s.prog s.pc.toNat 1 / 4 = (lookahead s.firstByte).toNat := by
  have hread : progReadNat s.prog s.pc.toNat 1 = s.firstByte.toNat := by
    simp [progReadNat, drop_pc_eq_cons hpc]
  rw [hread, lookahead_toNat]

theorem step79_of_unknown (hpc : s.pc.toNat < s.prog.length) (hop : opcodeOf? (lookahead s.firstByte) = none) :
    step79 s = s.raise .unknownOpcode ((lookahead s.firstByte).setWidth 32) := by
  simp only [step79, progReadNat_pc_one hpc]
  rw [if_pos (opcodeOf?_eq_none_iff.mp hop), BitVec.ofNat_toNat]
  rfl

theorem step79_of_truncated {op : Opcode} (hpc : s.pc.toNat < s.prog.length)
    (hop : opcodeOf? (lookahead s.firstByte) = some op) (hlen : s.prog.length < s.pc.toNat + op.ilen) :
    step79 s = s.raise .truncatedInstruction ((lookahead s.firstByte).setWidth 32) := by
  have hlegal : opcodeOf? (lookahead s.firstByte) ≠ none := by simp [hop]
  rw [Opcode.ilen_eq_ite_value, ← opcodeOf?_eq_some_iff.mp hop] at hlen
  simp only [step79, progReadNat_pc_one hpc]
  rw [if_neg (mt opcodeOf?_eq_none_iff.mpr hlegal), if_pos hlen, BitVec.ofNat_toNat]
  rfl

/-- The word that `Step()` reads is the encoding of the fetched instruction. -/
theorem progReadNat_of_fetch {i : Instr} (hf : fetch s = .ok i) :
    progReadNat s.prog s.pc.toNat i.opcode.ilen = progReadNat (encode i) 0 i.opcode.ilen := by
  rw [progReadNat, take_drop_pc_of_fetch hf, progReadNat, List.drop_zero, ← encode_length, List.take_length]

/-- The meaning of the fetched instruction is the rest of `Step()`: one search of the check list, then the fault or the
write and the `pc` advance. -/
theorem exec_eq_step79 {i : Instr} (hpc : s.pc.toNat < s.prog.length) (hf : fetch s = .ok i) :
    exec i s = .next (step79 s) := by
  obtain ⟨hop, hlen⟩ := fetch_ok hf
  have hlegal : opcodeOf? (lookahead s.firstByte) ≠ none := by simp [hop]
  have hvalue : lookahead s.firstByte = i.opcode.row.value := opcodeOf?_eq_some_iff.mp hop
  simp only [step79, progReadNat_pc_one hpc]
  rw [if_neg (mt opcodeOf?_eq_none_iff.mpr hlegal), hvalue, ← Opcode.ilen_eq_ite_value, if_neg (Nat.not_lt.mpr hlen),
    progReadNat_of_fetch hf]
  simp only [dispatch79_encode]
  cases hfirst : firstOutside s.memSize (checkedIndices i s) with
  | some x => exact exec_of_outside hfirst
  | none =>
    rw [exec_of_inside hfirst, BitVec.ofNat_add, BitVec.ofNat_toNat, BitVec.setWidth_eq]
    rfl

end running

/-- Settles O23: each of the three ways of a RUNNING core's step is that of `Step()`. -/
theorem stepRefinesWholeStepRule : Obligations.StepRefinesWholeStepRule := by
  unfold Obligations.StepRefinesWholeStepRule
  refine fun s hfits => ⟨fun hnone hpc => ?running, fun hstop t h => ?stopped⟩
  case running =>
    obtain ⟨hop, hstep⟩ | ⟨op, hop, hlen, hstep⟩ | ⟨i, hf, hstep⟩ :=
      running_step_cases hfits (status_running_iff.mpr ⟨hnone, hpc⟩)
    · rw [hstep, step79_of_unknown hpc hop]
    · rw [hstep, step79_of_truncated hpc hop hlen]
    · rw [hstep, exec_eq_step79 hpc hf]
  case stopped =>
    obtain ⟨hnone, hpc⟩ := status_running_iff.mp (running_of_step_next h).2
    exact hstop.elim (fun hfault => hfault hnone) (fun hend => Nat.not_lt.mpr hend hpc)

end Sys2Proof.Machine
end

