-- ==== Sys2Proof/Proofs/DataMovement.lean ====
section
/-! The data-movement instructions (R81 to R83). The fault and completion rules are stated over any check list; an
instruction then only supplies its own list. -/

namespace Sys2Proof.Machine

theorem firstOutside_eq_none_iff {n : Nat} {indices : List Word} :
    firstOutside n indices = none ↔ ∀ x ∈ indices, x.toNat < n := by
  simp [firstOutside]

/-- The first index outside memory has every index before it in memory. -/
theorem firstOutside_append_cons {n : Nat} {before : List Word} {x : Word} (after : List Word)
    (hbefore : ∀ y ∈ before, y.toNat < n) (hx : n ≤ x.toNat) :
    firstOutside n (before ++ x :: after) = some x := by
  have hnone : before.find? (fun y => decide (n ≤ y.toNat)) = none := firstOutside_eq_none_iff.mpr hbefore
  simp [firstOutside, List.find?_append, hnone, hx]

/-- The checks of B, the pointer `p` and C pass with the three in memory. -/
theorem checked_b_pointer_c {n : Nat} {b : BitVec 10} {c : BitVec 16} {p : Word}
    (hb : b.toNat < n) (hp : p.toNat < n) (hc : c.toNat < n) :
    ∀ x ∈ [b.setWidth 32, p, c.setWidth 32], x.toNat < n := by
  rw [← toNat_setWidth_field b (by decide)] at hb
  rw [← toNat_setWidth_field c (by decide)] at hc
  exact List.forall_mem_cons.mpr ⟨hb, List.forall_mem_cons.mpr ⟨hp, List.forall_mem_singleton.mpr hc⟩⟩

section exec
variable {i : Instr} {s : State}

/-- R95, R99: an index outside memory, with every index checked before it inside, is the one recorded. -/
theorem exec_raises_of_checked {before after : List Word} {x : Word}
    (hlist : checkedIndices i s = before ++ x :: after) (hbefore : ∀ y ∈ before, y.toNat < s.memSize)
    (hx : s.memSize ≤ x.toNat) : ∃ t, exec i s = .next t ∧ s.Raised t .outOfBoundsAccess x :=
  ⟨_, exec_of_outside (hlist ▸ firstOutside_append_cons after hbefore hx), s.raised_raise _ _⟩

/-- With any checked index outside memory, an instruction records some out-of-bounds index. -/
theorem exec_raises_of_mem {x : Word} (hmem : x ∈ checkedIndices i s) (hx : s.memSize ≤ x.toNat) :
    ∃ t y, exec i s = .next t ∧ s.Raised t .outOfBoundsAccess y := by
  cases hfirst : firstOutside s.memSize (checkedIndices i s) with
  | some y => exact ⟨_, y, exec_of_outside hfirst, s.raised_raise _ y⟩
  | none => exact absurd (firstOutside_eq_none_iff.mp hfirst x hmem) (Nat.not_lt.mpr hx)

/-- R78, R86: with every checked index in memory, the one word goes to the one cell and `pc` advances. -/
theorem exec_completes_of_checked (hlist : ∀ x ∈ checkedIndices i s, x.toNat < s.memSize) :
    ∃ t, exec i s = .next t ∧ t.pc = s.pc + BitVec.ofNat 32 i.opcode.ilen ∧ s.SameButMemPc t ∧
      ∀ a, t.mem.read a = if a = destination i s then writtenWord i s else s.mem.read a :=
  ⟨_, exec_of_inside (firstOutside_eq_none_iff.mpr hlist), rfl, ⟨rfl, rfl, rfl, rfl, rfl⟩, fun a => by simp⟩

/-- R95: an instruction that checks B, then the pointer `p`, then C raises the first of them outside memory. -/
theorem exec_faults_b_pointer_c {b : BitVec 10} {c : BitVec 16} {p : Word} {after : List Word}
    (hlist : checkedIndices i s = b.setWidth 32 :: p :: c.setWidth 32 :: after) :
    (s.memSize ≤ b.toNat →
      ∃ t, exec i s = .next t ∧ s.Raised t .outOfBoundsAccess (BitVec.ofNat 32 b.toNat)) ∧
    (b.toNat < s.memSize → s.memSize ≤ p.toNat →
      ∃ t, exec i s = .next t ∧ s.Raised t .outOfBoundsAccess p) ∧
    (b.toNat < s.memSize → p.toNat < s.memSize → s.memSize ≤ c.toNat →
      ∃ t, exec i s = .next t ∧ s.Raised t .outOfBoundsAccess (BitVec.ofNat 32 c.toNat)) := by
  rw [BitVec.ofNat_toNat, BitVec.ofNat_toNat, ← toNat_setWidth_field b (by decide),
    ← toNat_setWidth_field c (by decide)]
  refine ⟨fun hb => ?outsideB, fun hb hp => ?outsidePointer, fun hb hp hc => ?outsideC⟩
  case outsideB => exact exec_raises_of_checked (before := []) hlist (by simp) hb
  case outsidePointer =>
    exact exec_raises_of_checked (before := [b.setWidth 32]) hlist (List.forall_mem_singleton.mpr hb) hp
  case outsideC =>
    have hbefore : ∀ y ∈ [b.setWidth 32, p], y.toNat < s.memSize :=
      List.forall_mem_cons.mpr ⟨hb, List.forall_mem_singleton.mpr hp⟩
    exact exec_raises_of_checked (before := [b.setWidth 32, p]) hlist hbefore hc

end exec

/-- Settles O27: the check list is B alone, and the written constant has 24 bits. -/
theorem loadConstEffect : Obligations.LoadConstEffect := by
  unfold Obligations.LoadConstEffect
  intro b c s
  have hfield := toNat_setWidth_field b (by decide)
  refine ⟨fun hb => ?inside, fun hb => ?outside, fun hsize => hsize ▸ b.isLt⟩
  case inside =>
    obtain ⟨t, hexec, hpc, hframe, hread⟩ := exec_completes_of_checked (i := .loadConst b c)
      (List.forall_mem_singleton.mpr (hfield.symm ▸ hb))
    refine ⟨t, hexec, hpc, hframe, hread, ?_⟩
    have hword : t.mem.read b.toNat = c.setWidth 32 := by simp [hread, destination, writtenWord]
    rw [hword, toNat_setWidth_field c (by decide)]
    exact c.isLt
  case outside =>
    rw [BitVec.ofNat_toNat]
    exact exec_raises_of_checked (before := []) rfl (by simp) (hfield.symm ▸ hb)

/-- Settles O28: the check list is B, the pointer, C; the destination is C and the word is the pointer's cell. -/
theorem loadMemEffect : Obligations.LoadMemEffect := by
  unfold Obligations.LoadMemEffect
  intro b c s p hpointer
  subst hpointer
  obtain ⟨houtB, houtPointer, houtC⟩ := exec_faults_b_pointer_c (i := .loadMem b c) (s := s) rfl
  refine ⟨fun hb hp hc => exec_completes_of_checked (checked_b_pointer_c hb hp hc),
    houtB, houtPointer, houtC, fun hsize hc => ?_⟩
  have hout : s.memSize ≤ (c.setWidth 32).toNat := by rwa [toNat_setWidth_field c (by decide), hsize]
  obtain ⟨t, y, hexec, -, -, -, hmem, hcause, -, -⟩ :=
    exec_raises_of_mem (i := .loadMem b c) (by simp [checkedIndices]) hout
  exact ⟨t, hexec, hcause, hmem⟩

/-- Settles O29: the check list is B, the pointer, C; the destination is the old pointer and the word is cell C's. -/
theorem storeMemEffect : Obligations.StoreMemEffect := by
  unfold Obligations.StoreMemEffect
  intro b c s p hpointer
  subst hpointer
  exact ⟨fun hb hp hc => exec_completes_of_checked (checked_b_pointer_c hb hp hc),
    exec_faults_b_pointer_c rfl⟩

end Sys2Proof.Machine
end

