-- ==== Sys2Proof/Proofs/Bitreverse.lean ====
section
/-! `bitrev32` (R87, R89) and `BITREVERSE` (R88). A word is `bitrev32 v` exactly when its bits are those of `v` from the
other end; the properties of R89 are read off the bits. -/

namespace Sys2Proof.Machine

/-- R87, bit by bit. -/
theorem getLsbD_bitrev32 (v : Word) {i : Nat} (hi : i < 32) : (bitrev32 v).getLsbD i = v.getLsbD (31 - i) := by
  rw [bitrev32, BitVec.getLsbD_ofFnLE, dif_pos hi]

/-- R87's bits determine the word. -/
theorem bitrev32_eq_of_bits {v r : Word} (h : ∀ i < 32, r.getLsbD i = v.getLsbD (31 - i)) : bitrev32 v = r :=
  BitVec.eq_of_getLsbD_eq fun i hi => (getLsbD_bitrev32 v hi).trans (h i hi).symm

/-- `bitrev32` is the library's reversal of a bit vector. -/
theorem bitrev32_eq_reverse (v : Word) : bitrev32 v = v.reverse :=
  bitrev32_eq_of_bits fun i hi => by
    simp only [BitVec.getLsbD_reverse, BitVec.getMsbD_eq_getLsbD, hi, decide_true, Bool.true_and]

/-- The number with the given bits is the sum of their weights. -/
theorem ofBits_eq_sum {n : Nat} (f : Fin n → Bool) : Nat.ofBits f = ∑ i : Fin n, (f i).toNat * 2 ^ i.val := by
  induction n with
  | zero => rfl
  | succ n ih =>
    rw [Nat.ofBits_succ, ih, Fin.sum_univ_succ, Finset.mul_sum, Nat.add_comm]
    simp [Nat.pow_succ, Nat.mul_left_comm, Nat.mul_comm]

/-- R87's sum: bit `i` of `v` has the weight of bit `31 - i`. -/
theorem bitrev32_toNat (v : Word) :
    (bitrev32 v).toNat = ((List.range 32).map fun i => (v.getLsbD i).toNat * 2 ^ (31 - i)).sum := by
  calc (bitrev32 v).toNat
    _ = ∑ i : Fin 32, (v.getLsbD (31 - i.val)).toNat * 2 ^ i.val := by
      rw [bitrev32, BitVec.toNat_ofFnLE, ofBits_eq_sum]
    _ = ∑ i : Fin 32, (v.getLsbD i.val).toNat * 2 ^ (31 - i.val) := by
      rw [← Equiv.sum_comp Fin.revPerm]
      refine Finset.sum_congr rfl fun i _ => ?_
      have hrev : (Fin.revPerm i).val = 31 - i.val := by rw [Fin.revPerm_apply, Fin.val_rev]; omega
      have hback : 31 - (31 - i.val) = i.val := by omega
      rw [hrev, hback]
    _ = _ := (Finset.sum_range fun i => (v.getLsbD i).toNat * 2 ^ (31 - i)).symm

/-- Settles O32: the bits are those of the definition, and the sum is that of the word's bits in the other order. -/
theorem bitrev32ReversesBits : Obligations.Bitrev32ReversesBits := by
  unfold Obligations.Bitrev32ReversesBits
  exact fun v => ⟨fun i hi => getLsbD_bitrev32 v hi, bitrev32_toNat v⟩

/-- R89 (a): reversing twice restores the word. -/
theorem bitrev32_involutive : Function.Involutive bitrev32 := fun v => by
  rw [bitrev32_eq_reverse, bitrev32_eq_reverse, BitVec.reverse_reverse_eq]

/-- R89 (c): each bitwise operation acts on bit `i` and on bit `31 - i` alike. -/
theorem bitrev32_bitwise (v w : Word) :
    bitrev32 (v &&& w) = bitrev32 v &&& bitrev32 w ∧ bitrev32 (v ||| w) = bitrev32 v ||| bitrev32 w ∧
      bitrev32 (v ^^^ w) = bitrev32 v ^^^ bitrev32 w ∧ bitrev32 (~~~v) = ~~~(bitrev32 v) := by
  refine ⟨bitrev32_eq_of_bits fun i hi => ?and, bitrev32_eq_of_bits fun i hi => ?or,
    bitrev32_eq_of_bits fun i hi => ?xor, bitrev32_eq_of_bits fun i hi => ?not⟩
  case and => simp only [BitVec.getLsbD_and, getLsbD_bitrev32 _ hi]
  case or => simp only [BitVec.getLsbD_or, getLsbD_bitrev32 _ hi]
  case xor => simp only [BitVec.getLsbD_xor, getLsbD_bitrev32 _ hi]
  case not =>
    have hflip : 31 - i < 32 := by omega
    simp only [BitVec.getLsbD_not, getLsbD_bitrev32 _ hi, hi, hflip]

/-- R89 (d): no word but 0 loses all its bits. -/
theorem bitrev32_eq_zero_iff (v : Word) : bitrev32 v = 0 ↔ v = 0 := by
  rw [bitrev32_eq_reverse]
  exact BitVec.reverse_eq_zero_iff

/-- R89 (e): bit `i` is the single bit `31 - k` exactly when bit `31 - i` is the single bit `k`. -/
theorem bitrev32_two_pow {k : Nat} (hk : k < 32) :
    bitrev32 (BitVec.ofNat 32 (2 ^ k)) = BitVec.ofNat 32 (2 ^ (31 - k)) := by
  refine bitrev32_eq_of_bits fun i hi => ?_
  have hflip : 31 - i < 32 := by omega
  have hsame : 31 - k = i ↔ k = 31 - i := by omega
  simp only [BitVec.getLsbD_ofNat, Nat.testBit_two_pow, hi, hflip, hsame]

/-- A number is a multiple of `2^m` when its bits below `m` are 0. -/
theorem two_pow_dvd_of_bits {n m : Nat} (h : ∀ i < m, n.testBit i = false) : 2 ^ m ∣ n := by
  refine Nat.dvd_of_mod_eq_zero (Nat.eq_of_testBit_eq fun i => ?_)
  by_cases hi : i < m
  · simp [hi, h i hi]
  · simp [hi]

/-- R89 (f): the bits from `k` on are 0, so the low `32 - k` bits of the reversed word are. -/
theorem two_pow_dvd_bitrev32 {v : Word} {k : Nat} (hv : v.toNat < 2 ^ k) : 2 ^ (32 - k) ∣ (bitrev32 v).toNat := by
  refine two_pow_dvd_of_bits fun i hi => ?_
  have hle : 2 ^ k ≤ 2 ^ (31 - i) := Nat.pow_le_pow_right (by decide) (by omega)
  calc (bitrev32 v).toNat.testBit i
    _ = v.toNat.testBit (31 - i) := getLsbD_bitrev32 v (by omega)
    _ = false := Nat.testBit_lt_two_pow (Nat.lt_of_lt_of_le hv hle)

/-- Settles O33: an involution is a bijection; the other properties are read off the bits. -/
theorem bitrev32Properties : Obligations.Bitrev32Properties := by
  unfold Obligations.Bitrev32Properties
  refine ⟨bitrev32_involutive, bitrev32_involutive.bijective, bitrev32_bitwise, bitrev32_eq_zero_iff,
    fun k hk => bitrev32_two_pow hk, fun v k _ hv => two_pow_dvd_bitrev32 hv, ?samples⟩
  case samples => decide +kernel

/-- Settles O30: the check list is that of `LOAD_MEM` with the pointer in cell C behind it; the destination is that
pointer's cell and the word is the reversed one. -/
theorem bitreverseEffect : Obligations.BitreverseEffect := by
  unfold Obligations.BitreverseEffect
  rintro b c s p q rfl rfl
  obtain ⟨houtB, houtPointer, houtC⟩ := exec_faults_b_pointer_c (i := .bitreverse b c) (s := s) rfl
  refine ⟨fun hb hp hc hq => ?inside, houtB, houtPointer, houtC, fun hb hp hc hq => ?outsideDestination⟩
  case inside =>
    have hchecked : ∀ x ∈ checkedIndices (.bitreverse b c) s, x.toNat < s.memSize :=
      List.forall_mem_append.mpr ⟨checked_b_pointer_c hb hp hc, List.forall_mem_singleton.mpr hq⟩
    obtain ⟨t, hexec, hpc, hframe, hread⟩ := exec_completes_of_checked hchecked
    refine ⟨t, hexec, hpc, hframe, fun k hk => ?result, fun a ha => (hread a).trans (if_neg ha)⟩
    case result =>
      have hword : t.mem.read (s.mem.read c.toNat).toNat = bitrev32 (s.mem.read (s.mem.read b.toNat).toNat) :=
        (hread _).trans (if_pos rfl)
      rw [hword, getLsbD_bitrev32 _ hk]
  case outsideDestination => exact exec_raises_of_checked rfl (checked_b_pointer_c hb hp hc) hq

end Sys2Proof.Machine
end

