-- ==== Sys2Proof/Proofs/Faults.lean ====
section
/-! Faults (`60_exceptions.md`): which fault a step raises (R95, R96, R98), that raising it writes the record alone and
is precise (R99, R100), and that FAULTED ends the run (R101, R102, R120). -/

namespace Sys2Proof.Machine

section bounds
variable {i : Instr} {s : State}

/-- R95: the index of the cell that an instruction writes is one of those it checks. -/
theorem destination_is_checked (i : Instr) (s : State) : ∃ x ∈ checkedIndices i s, x.toNat = destination i s := by
  cases i with
  | loadConst b _ => exact ⟨b.setWidth 32, by simp [checkedIndices], toNat_setWidth_field b (by decide)⟩
  | loadMem _ c => exact ⟨c.setWidth 32, by simp [checkedIndices], toNat_setWidth_field c (by decide)⟩
  | storeMem b _ => exact ⟨s.mem.read b.toNat, by simp [checkedIndices], rfl⟩
  | bitreverse _ c => exact ⟨s.mem.read c.toNat, by simp [checkedIndices], rfl⟩

theorem destination_lt_memSize (hchecked : ∀ x ∈ checkedIndices i s, x.toNat < s.memSize) :
    destination i s < s.memSize := by
  obtain ⟨x, hmem, hx⟩ := destination_is_checked i s
  exact hx ▸ hchecked x hmem

/-- R95: the recorded index is a checked one, and outside memory. -/
theorem mem_and_le_of_firstOutside {n : Nat} {indices : List Word} {x : Word} (h : firstOutside n indices = some x) :
    x ∈ indices ∧ n ≤ x.toNat :=
  ⟨List.mem_of_find?_eq_some h, by simpa using List.find?_some h⟩

/-- R96: the 10-bit index that `LOAD_CONST` checks is outside memory only where memory has fewer than 1024 cells. -/
theorem memSize_lt_of_loadConst_outside {x : Word} (hop : i.opcode = .loadConst)
    (hfirst : firstOutside s.memSize (checkedIndices i s) = some x) : s.memSize < 1024 := by
  obtain ⟨hmem, hout⟩ := mem_and_le_of_firstOutside hfirst
  cases i with
  | loadConst b c =>
    obtain rfl : x = b.setWidth 32 := List.mem_singleton.mp hmem
    rw [toNat_setWidth_field b (by decide)] at hout
    exact Nat.lt_of_le_of_lt hout b.isLt
  | loadMem b c | storeMem b c | bitreverse b c => cases hop

end bounds

/-- Settles O31: the check list decides between the record and the one write; the destination is in that list. -/
theorem boundsCheckedInOrder : Obligations.BoundsCheckedInOrder := by
  unfold Obligations.BoundsCheckedInOrder
  refine fun i s => ⟨fun x hfirst => ⟨_, exec_of_outside hfirst, s.raised_raise _ x⟩, fun hinside => ?_⟩
  have hchecked := firstOutside_eq_none_iff.mp hinside
  obtain ⟨t, hexec, hpc, hframe, hread⟩ := exec_completes_of_checked hchecked
  exact ⟨destination_lt_memSize hchecked, t, hexec, hframe, hpc, hread⟩

section step
variable {s t : State}

/-- R98: the outcome of a step that fetches an instruction, by its check list. -/
theorem step_of_fetch_by_checks {i : Instr} (h : step s = .next t) (hf : fetch s = .ok i) :
    (∀ x, firstOutside s.memSize (checkedIndices i s) = some x → s.Raised t .outOfBoundsAccess x) ∧
    (firstOutside s.memSize (checkedIndices i s) = none →
      t.faultCause = .none ∧ t.faultPc = s.faultPc ∧ t.faultVal = s.faultVal) := by
  obtain ⟨hfits, hrun⟩ := running_of_step_next h
  rw [step_of_fetch hfits hrun hf] at h
  refine ⟨fun x hfirst => ?outside, fun hinside => ?inside⟩
  case outside =>
    obtain rfl := Host.Outcome.next.inj ((exec_of_outside hfirst).symm.trans h)
    exact s.raised_raise _ x
  case inside =>
    obtain rfl := Host.Outcome.next.inj ((exec_of_inside hinside).symm.trans h)
    exact ⟨(status_running_iff.mp hrun).1, rfl, rfl⟩

/-- R99: the frame of a step that leaves a fault recorded. -/
theorem step_raised_of_fault (h : step s = .next t) (hfault : t.faultCause ≠ .none) :
    s.Raised t t.faultCause t.faultVal := by
  have hnone : s.faultCause = .none := (step_control h).1
  obtain ⟨cause, info, -, rfl⟩ | ⟨i, dst, v, -, rfl⟩ := step_raises_or_completes h
  · exact s.raised_raise cause info
  · exact absurd hnone hfault

end step

/-- Settles O22: the first byte decides between the two fetch faults and the fetched instruction, whose check list
decides the rest. -/
theorem faultsInPriorityOrder : Obligations.FaultsInPriorityOrder := by
  unfold Obligations.FaultsInPriorityOrder
  intro s t h
  obtain ⟨hfits, hrun⟩ := running_of_step_next h
  refine ⟨fun hop => ?unknown, fun op hop hshort => ?truncated, fun op hop hfull => ?fits, rfl, rfl, rfl, rfl⟩
  case unknown =>
    obtain rfl := Host.Outcome.next.inj ((step_of_unknown hfits hrun hop).symm.trans h)
    exact s.raised_raise _ _
  case truncated =>
    obtain rfl := Host.Outcome.next.inj ((step_of_truncated hfits hrun hop hshort).symm.trans h)
    exact s.raised_raise _ _
  case fits =>
    obtain ⟨i, hf⟩ := fetch_of_fits (status_running_iff.mp hrun).2 hop hfull
    obtain rfl : i.opcode = op := Option.some.inj ((fetch_ok hf).1.symm.trans hop)
    obtain ⟨houtside, hinside⟩ := step_of_fetch_by_checks h hf
    exact ⟨i, rfl, hf,
      fun x hfirst => ⟨houtside x hfirst, fun hload => memSize_lt_of_loadConst_outside hload hfirst⟩, hinside⟩

/-- Settles O36: the faulting step's state is FAULTED, and its program is still the one that fits. -/
theorem raisingWritesOnlyTheRecord : Obligations.RaisingWritesOnlyTheRecord := by
  unfold Obligations.RaisingWritesOnlyTheRecord
  intro s t h hfault
  have hstatus : t.status = .faulted := status_faulted_iff.mpr hfault
  have hfits : t.prog.length ≤ Config.maxProgLen := (step_keeps_inputs h).1 ▸ (running_of_step_next h).1
  exact ⟨step_raised_of_fault h hfault, hstatus, step_of_faulted hfits hstatus⟩

/-- The last step of a run of one step more. -/
theorem exists_last_step_of_run {s t : State} {k : Nat} (h : core.run (k + 1) s = .next t) :
    ∃ u, core.run k s = .next u ∧ step u = .next t := by
  induction k generalizing s with
  | zero =>
    obtain ⟨u, hstep, hrest⟩ := run_succ_next_iff.mp h
    obtain rfl : u = t := Host.Outcome.next.inj hrest
    exact ⟨s, rfl, hstep⟩
  | succ k ih =>
    obtain ⟨v, hfirst, hrest⟩ := run_succ_next_iff.mp h
    obtain ⟨u, hrun, hlast⟩ := ih hrest
    exact ⟨u, run_succ_next_iff.mpr ⟨v, hfirst, hrun⟩, hlast⟩

/-- Settles O37: the last step starts without a fault, as every step does, and writes the record alone. -/
theorem faultsArePrecise : Obligations.FaultsArePrecise := by
  unfold Obligations.FaultsArePrecise
  intro s t k hrun hnone hfault
  cases k with
  | zero =>
    obtain rfl : s = t := Host.Outcome.next.inj hrun
    exact absurd hnone hfault
  | succ j =>
    obtain ⟨u, hprefix, hlast⟩ := exists_last_step_of_run hrun
    obtain ⟨-, -, hpc, hmem, -, hfaultPc, -⟩ := step_raised_of_fault hlast hfault
    exact ⟨j, u, rfl, hprefix, (step_control hlast).1, hlast, hmem, hpc, hfaultPc⟩

/-- A step that ends in a fault ends the run, of any machine behind the host's interface. -/
theorem coreRun_succ_of_step_fault (M : Host.Core) {s : M.State} {r : M.Fault} (h : M.step s = .fault r) (k : Nat) :
    M.run (k + 1) s = .fault r := by
  rw [Host.Core.run, h]

section faulted
variable {s : State}

/-- R102: the only run from FAULTED to a next state is that of no steps. -/
theorem run_next_of_faulted {t : State} {k : Nat} (hfault : s.faultCause ≠ .none) (h : core.run k s = .next t) :
    t = s := by
  cases k with
  | zero => exact (Host.Outcome.next.inj h).symm
  | succ k =>
    obtain ⟨u, hfirst, -⟩ := run_succ_next_iff.mp h
    exact absurd (step_control hfirst).1 hfault

/-- R120: a FAULTED core gives no result. -/
theorem result_of_faulted (h : s.status = .faulted) : s.result = none := by
  rw [State.result, h]

/-- R120: a FAULTED core gives no dump. -/
theorem dump_of_faulted (h : s.status = .faulted) (start stop : Nat) : s.dump start stop = none := by
  simp [State.dump, h]

/-- R28: a FAULTED core's memory can be read. -/
theorem readout_of_faulted (h : s.status = .faulted) {i : Nat} (hi : i < s.memSize) :
    s.readout i = some (s.mem.read i) := by
  simp [State.readout, h, hi]

end faulted

/-- Settles O38: every step starts without a fault recorded, and reset leaves none. -/
theorem faultedUntilReset : Obligations.FaultedUntilReset := by
  unfold Obligations.FaultedUntilReset
  refine ⟨fun s t h => (step_control h).1, fun s t k => run_next_of_faulted, fun s hfits hfault k => ?stops,
    fun s => ⟨rfl, rfl, rfl, Memory.read_nil, ?reset⟩⟩
  case stops => exact coreRun_succ_of_step_fault core (step_of_faulted hfits (status_faulted_iff.mpr hfault)) k
  case reset => exact fun hfaulted => status_faulted_iff.mp hfaulted s.applyReset_faultCause

/-- Settles O39: the three read-outs are functions of the status, which is FAULTED. -/
theorem faultedRunHasNoResult : Obligations.FaultedRunHasNoResult := by
  unfold Obligations.FaultedRunHasNoResult
  intro s hfault
  have hstatus : s.status = .faulted := status_faulted_iff.mpr hfault
  exact ⟨result_of_faulted hstatus, dump_of_faulted hstatus, fun i hi => readout_of_faulted hstatus hi⟩

end Sys2Proof.Machine
end

