-- ==== Sys2Proof/Proofs/RunEnd.lean ====
section
/-! How a run ends: a state has no step exactly at the program's end or with a fault recorded, and every run gets to
such a state (R115, R116). -/

namespace Sys2Proof.Machine

/-- R116: a HALTED core's memory is its result. -/
theorem result_of_halted {s : State} (h : s.status = .halted) : s.result = some s.mem := by
  rw [State.result, h]

/-- R69: exactly a RUNNING core has a next state. -/
theorem exists_step_iff_running {s : State} (hfits : s.ProgFits) : (∃ t, step s = .next t) ↔ s.status = .running :=
  ⟨fun ⟨_, h⟩ => (running_of_step_next h).2, step_next_of_running hfits⟩

/-- A core with `pc` inside the program has stopped at the program's end or with a fault recorded. -/
theorem status_ne_running_iff {s : State} (hpc : s.pc.toNat ≤ s.prog.length) :
    s.status ≠ .running ↔ (s.faultCause = .none ∧ s.pc.toNat = s.prog.length) ∨ s.faultCause ≠ .none := by
  rw [Ne, status_running_iff]
  by_cases hnone : s.faultCause = .none
  · simp [hnone, hpc.ge_iff_eq]
  · simp [hnone]

/-- Either a run gets to a state without a step, or it takes any number of steps, of any machine behind the host's
interface. -/
theorem coreRun_stops_or_continues (M : Host.Core) (n : Nat) (s : M.State) :
    (∃ k t, M.run k s = .next t ∧ ∀ u, M.step t ≠ .next u) ∨ ∃ t, M.run n s = .next t := by
  induction n generalizing s with
  | zero => exact .inr ⟨s, rfl⟩
  | succ n ih =>
    by_cases hstep : ∃ u, M.step s = .next u
    case neg => exact .inl ⟨0, s, rfl, not_exists.mp hstep⟩
    case pos =>
      obtain ⟨u, hu⟩ := hstep
      obtain ⟨k, t, hrun, hstop⟩ | ⟨t, hrun⟩ := ih u
      · exact .inl ⟨k + 1, t, (coreRun_succ_next_iff M).mpr ⟨u, hu, hrun⟩, hstop⟩
      · exact .inr ⟨t, (coreRun_succ_next_iff M).mpr ⟨u, hu, hrun⟩⟩

/-- R116: every run ends, since its program's length bounds its steps (R14). -/
theorem run_boot_ends (prog : List Byte) (memSize : Nat) :
    ∃ k t, core.run k (State.boot prog memSize) = .next t ∧ ∀ u, step t ≠ .next u := by
  obtain hends | ⟨t, hrun⟩ := coreRun_stops_or_continues core (prog.length / 4 + 2) (State.boot prog memSize)
  · exact hends
  · have hbound : prog.length / 4 + 2 ≤ prog.length / 4 + 1 := (run_boot_ranFor hrun).steps_le.1
    omega

/-- Settles O47: a state that fits has no step where it is not RUNNING, and a run's length is bounded. -/
theorem runEndsHaltedOrFaulted : Obligations.RunEndsHaltedOrFaulted := by
  unfold Obligations.RunEndsHaltedOrFaulted
  refine ⟨fun s hfits hpc => ⟨?noStep, fun hnone hend => ?halted, fun hfault => ?faulted⟩, run_boot_ends⟩
  case noStep => rw [← not_exists, exists_step_iff_running hfits, ← Ne, status_ne_running_iff hpc]
  case halted =>
    have hstatus : s.status = .halted := status_halted_iff.mpr ⟨hnone, hend.ge⟩
    exact ⟨hstatus, result_of_halted hstatus⟩
  case faulted =>
    have hstatus : s.status = .faulted := status_faulted_iff.mpr hfault
    exact ⟨hstatus, result_of_faulted hstatus⟩

/-- Settles O46: `pc = 0` is already the empty program's end, and no cell is listed. -/
theorem emptyProgramHaltsAtOnce : Obligations.EmptyProgramHaltsAtOnce := by
  unfold Obligations.EmptyProgramHaltsAtOnce
  intro memSize
  have hfits : (State.boot [] memSize).ProgFits := Nat.zero_le _
  have hstatus : (State.boot [] memSize).status = .halted := status_halted_iff.mpr ⟨rfl, Nat.zero_le _⟩
  exact ⟨hstatus, step_of_halted hfits hstatus, [], result_of_halted hstatus, Memory.read_nil⟩

end Sys2Proof.Machine
end

