-- ==== Sys2Proof/Proofs/MachineInvariant.lean ====
section
/-! The invariant of the machine: what each outcome of a step does to it, and that every run starts with it. -/

namespace Sys2Proof.Machine

/-- Everything a step with a next state can do, with its reason, in the order of R98. -/
theorem step_outcomes {s t : State} (h : step s = .next t) :
    (opcodeOf? (lookahead s.firstByte) = none ∧
      t = s.raise .unknownOpcode ((lookahead s.firstByte).setWidth 32)) ∨
    (∃ op, opcodeOf? (lookahead s.firstByte) = some op ∧ s.prog.length < s.pc.toNat + op.ilen ∧
      t = s.raise .truncatedInstruction ((lookahead s.firstByte).setWidth 32)) ∨
    (∃ i x, fetch s = .ok i ∧ firstOutside s.memSize (checkedIndices i s) = some x ∧
      t = s.raise .outOfBoundsAccess x) ∨
    (∃ i, fetch s = .ok i ∧ firstOutside s.memSize (checkedIndices i s) = none ∧
      t = (s.writeCell (destination i s) (writtenWord i s)).advance i.opcode.ilen) := by
  obtain ⟨hfits, hrun⟩ := running_of_step_next h
  obtain ⟨hop, hstep⟩ | ⟨op, hop, hshort, hstep⟩ | ⟨i, hf, hstep⟩ := running_step_cases hfits hrun
  · exact .inl ⟨hop, Host.Outcome.next.inj (h.symm.trans hstep)⟩
  · exact .inr (.inl ⟨op, hop, hshort, Host.Outcome.next.inj (h.symm.trans hstep)⟩)
  · cases hfirst : firstOutside s.memSize (checkedIndices i s) with
    | some x =>
      have ht := Host.Outcome.next.inj (h.symm.trans (hstep.trans (exec_of_outside hfirst)))
      exact .inr (.inr (.inl ⟨i, x, hf, hfirst, ht⟩))
    | none =>
      have ht := Host.Outcome.next.inj (h.symm.trans (hstep.trans (exec_of_inside hfirst)))
      exact .inr (.inr (.inr ⟨i, hf, hfirst, ht⟩))

/-- A fault raised inside the program keeps the invariant when its record is true: `pc` and memory stay. -/
theorem State.Inv.raise {s : State} {cause : FaultCause} {info : Word} (hs : s.Inv)
    (hpc : s.pc.toNat < s.prog.length) (hrecord : (s.raise cause info).RecordTrue) : (s.raise cause info).Inv where
  progFits := hs.progFits
  pcInProg := hs.pcInProg
  memCanonical := hs.memCanonical
  memInside := hs.memInside
  faultInside := fun _ => hpc
  recordTrue := hrecord

/-- With no fault recorded, a true record is all 0. -/
theorem recordTrue_iff_of_none {s : State} (hnone : s.faultCause = .none) :
    s.RecordTrue ↔ s.faultPc = 0 ∧ s.faultVal = 0 := by
  rw [State.RecordTrue, hnone]

/-- A write inside memory and an advance inside the program keep the invariant where no fault is recorded. -/
theorem State.Inv.writeCell_advance {s : State} {a n : Nat} {v : Word} (hs : s.Inv) (hnone : s.faultCause = .none)
    (ha : a < s.memSize) (hpc : ((s.writeCell a v).advance n).pc.toNat ≤ s.prog.length) :
    ((s.writeCell a v).advance n).Inv where
  progFits := hs.progFits
  pcInProg := hpc
  memCanonical := Memory.write_wf hs.memCanonical a v
  memInside := Memory.write_inside hs.memInside ha v
  faultInside := fun hfault => absurd hnone hfault
  recordTrue := (recordTrue_iff_of_none (s := (s.writeCell a v).advance n) hnone).mpr
    ((recordTrue_iff_of_none hnone).mp hs.recordTrue)

/-- Settles O41: a raised fault records what the step found at `pc`; a completed instruction writes its destination, one
of the indices it checked. -/
theorem stepKeepsMachineInvariant : Obligations.StepKeepsMachineInvariant := by
  unfold Obligations.StepKeepsMachineInvariant
  intro s t hs h
  obtain ⟨hnone, hpc, hprog, -⟩ := step_control h
  have hpc' : t.pc.toNat ≤ s.prog.length := hprog ▸ step_keeps_pc_le hs.pcInProg h
  obtain ⟨hop, rfl⟩ | ⟨op, hop, hshort, rfl⟩ | ⟨i, x, -, hfirst, rfl⟩ | ⟨i, -, hinside, rfl⟩ := step_outcomes h
  · exact hs.raise hpc ⟨rfl, rfl, hop⟩
  · exact hs.raise hpc ⟨rfl, rfl, op, hop, hshort⟩
  · exact hs.raise hpc ⟨rfl, (mem_and_le_of_firstOutside hfirst).2⟩
  · exact hs.writeCell_advance hnone (destination_lt_memSize (firstOutside_eq_none_iff.mp hinside)) hpc'

/-- A state with `pc`, memory and the fault record all 0 has the invariant, whatever the run's inputs. -/
theorem State.inv_of_zero {s : State} (hfits : s.ProgFits) (hpc : s.pc = 0) (hmem : s.mem = [])
    (hnone : s.faultCause = .none) (hrecord : s.faultPc = 0 ∧ s.faultVal = 0) : s.Inv where
  progFits := hfits
  pcInProg := by simp [hpc]
  memCanonical := hmem ▸ reset_mem_wf
  memInside := by simp [hmem]
  faultInside := fun hfault => absurd hnone hfault
  recordTrue := (recordTrue_iff_of_none hnone).mpr hrecord

/-- Settles O42: reset, boot and a reset in any state give the zero state over the run's inputs. -/
theorem resetHasMachineInvariant : Obligations.ResetHasMachineInvariant := by
  unfold Obligations.ResetHasMachineInvariant
  exact ⟨State.inv_of_zero (Nat.zero_le _) rfl rfl rfl ⟨rfl, rfl⟩,
    fun prog memSize hfits => State.inv_of_zero hfits rfl rfl rfl ⟨rfl, rfl⟩,
    fun s hfits => State.inv_of_zero hfits rfl rfl rfl ⟨rfl, rfl⟩⟩

end Sys2Proof.Machine
end

