-- ==== Sys2Proof/Proofs/CanonicalMemory.lean ====
section
/-! The canonical form of memory is unique: the list of a canonical memory can be read off what its cells read. -/

namespace Sys2Proof.Machine

/-- A cell below every listed index reads 0. -/
theorem Memory.read_eq_zero_of_lt {m : Memory} {a : Nat} (h : ∀ c ∈ m, a < c.1) : m.read a = 0 := by
  induction m with
  | nil => rfl
  | cons cell m ih =>
    obtain ⟨hcell, hrest⟩ := List.forall_mem_cons.mp h
    rw [Memory.read_cons, if_neg hcell.ne', ih hrest]

/-- The parts of a canonical memory: its first cell holds a word other than 0 and lies below the others, which are
canonical themselves. -/
theorem Memory.wf_cons {cell : Nat × Word} {m : Memory} (h : Memory.wf (cell :: m)) :
    cell.2 ≠ 0 ∧ (∀ c ∈ m, cell.1 < c.1) ∧ m.wf := by
  obtain ⟨hrising, hnonzero⟩ := h
  obtain ⟨hfirst, hrising⟩ := List.pairwise_cons.mp hrising
  obtain ⟨hcell, hnonzero⟩ := List.forall_mem_cons.mp hnonzero
  exact ⟨hcell, hfirst, hrising, hnonzero⟩

/-- A canonical memory that lists a cell does not read 0 at its first cell. -/
theorem Memory.read_first_ne_zero {cell : Nat × Word} {m : Memory} (h : Memory.wf (cell :: m)) :
    Memory.read (cell :: m) cell.1 ≠ 0 := by
  simpa using (Memory.wf_cons h).1

/-- The first cell of a canonical memory is not below the first cell of another that reads alike, where it would
read 0. -/
theorem Memory.first_le_of_read_eq {cell cell' : Nat × Word} {m n : Memory} (hm : Memory.wf (cell :: m))
    (hn : Memory.wf (cell' :: n)) (hread : ∀ a, Memory.read (cell :: m) a = Memory.read (cell' :: n) a) :
    cell'.1 ≤ cell.1 := by
  by_contra hlt
  obtain ⟨-, hfirst, -⟩ := Memory.wf_cons hn
  have hlt : cell.1 < cell'.1 := Nat.not_le.mp hlt
  have hbelow : ∀ c ∈ cell' :: n, cell.1 < c.1 :=
    List.forall_mem_cons.mpr ⟨hlt, fun c hc => hlt.trans (hfirst c hc)⟩
  exact Memory.read_first_ne_zero hm ((hread cell.1).trans (Memory.read_eq_zero_of_lt hbelow))

/-- Two canonical memories that read alike begin with the same cell, and the rest of them reads alike. -/
theorem Memory.cons_inv_of_read_eq {cell cell' : Nat × Word} {m n : Memory} (hm : Memory.wf (cell :: m))
    (hn : Memory.wf (cell' :: n)) (hread : ∀ a, Memory.read (cell :: m) a = Memory.read (cell' :: n) a) :
    cell = cell' ∧ ∀ a, m.read a = n.read a := by
  have hindex : cell.1 = cell'.1 :=
    Nat.le_antisymm (Memory.first_le_of_read_eq hn hm fun a => (hread a).symm) (Memory.first_le_of_read_eq hm hn hread)
  refine ⟨Prod.ext hindex (by simpa [hindex] using hread cell'.1), fun a => ?_⟩
  by_cases ha : cell'.1 = a
  · subst ha
    obtain ⟨-, hfirst, -⟩ := Memory.wf_cons hm
    obtain ⟨-, hfirst', -⟩ := Memory.wf_cons hn
    rw [Memory.read_eq_zero_of_lt (hindex ▸ hfirst), Memory.read_eq_zero_of_lt hfirst']
  · simpa [hindex, ha] using hread a

/-- Settles O49: by induction along both lists. -/
theorem canonicalMemoriesAreEqual : Obligations.CanonicalMemoriesAreEqual := by
  unfold Obligations.CanonicalMemoriesAreEqual
  intro m n hm hn hread
  induction m generalizing n with
  | nil =>
    cases n with
    | nil => rfl
    | cons cell' n => exact absurd (hread cell'.1).symm (Memory.read_first_ne_zero hn)
  | cons cell m ih =>
    cases n with
    | nil => exact absurd (hread cell.1) (Memory.read_first_ne_zero hm)
    | cons cell' n =>
      obtain ⟨rfl, hrest⟩ := Memory.cons_inv_of_read_eq hm hn hread
      obtain ⟨-, -, hm⟩ := Memory.wf_cons hm
      obtain ⟨-, -, hn⟩ := Memory.wf_cons hn
      rw [ih n hm hn hrest]

end Sys2Proof.Machine
end

