-- ==== Sys2Proof/Proofs/StepOfBytes.lean ====
section
/-! The step as a function of the bytes at `pc`: it runs the instruction they encode, wherever that encoding comes from
(R70 to R77), and no other byte of the program has a part in it (R26). -/

namespace Sys2Proof

/-- Settles O3: each row's bytes are the encoding of its instruction. -/
theorem specVectorsDecode : Obligations.SpecVectorsDecode := by
  unfold Obligations.SpecVectorsDecode
  simp only [decode_eq_ok_iff]
  decide

theorem decode_tableBytes {nbits w : Nat} {i : Instr} (h : decodeTableWord nbits w = some i) :
    ∃ rest, decode (tableBytes nbits w) = .ok (i, rest) := by
  unfold decodeTableWord at h
  split at h
  case h_1 j rest hdec =>
    obtain rfl : j = i := Option.some.inj h
    exact ⟨rest, hdec⟩
  case h_2 => cases h

/-- The bytes placed for an opcode-table word that decodes are its instruction's encoding. -/
theorem tableInstrBytes_eq_encode {nbits w : Nat} {i : Instr} (h : decodeTableWord nbits w = some i) :
    tableInstrBytes nbits w = encode i := by
  obtain ⟨rest, hdec⟩ := decode_tableBytes h
  simp only [tableInstrBytes, h]
  rw [← encode_append_of_decode hdec, ← encode_length, List.take_left]

namespace Machine

/-- Settles O16: the bound is `2^32 - 1` bytes. -/
theorem tooLongProgramIsRefused : Obligations.TooLongProgramIsRefused := by
  unfold Obligations.TooLongProgramIsRefused
  intro s hlong
  have hbound : Config.maxProgLen < 2 ^ 32 := by decide
  exact step_of_tooLong (Nat.lt_of_lt_of_le hbound hlong)

section decoded
variable {s : State} {i : Instr}

theorem fetch_of_decode {after : List Byte} (h : decode (s.prog.drop s.pc.toNat) = .ok (i, after)) :
    fetch s = .ok i := by
  rw [fetch, h]
  rfl

/-- Settles O17: the fetch of a RUNNING core is the decoder on the bytes from `pc` on. -/
theorem stepRunsDecodedInstruction : Obligations.StepRunsDecodedInstruction := by
  unfold Obligations.StepRunsDecodedInstruction
  exact fun s i after hfits hnone hpc hdec =>
    step_of_fetch hfits (status_running_iff.mpr ⟨hnone, hpc⟩) (fetch_of_decode hdec)

/-- Bytes from `pc` on that begin with an encoding are fetched as its instruction, inside the program. -/
theorem fetch_of_drop_eq_encode {after : List Byte} (h : s.prog.drop s.pc.toNat = encode i ++ after) :
    fetch s = .ok i ∧ s.pc.toNat < s.prog.length := by
  have hf : fetch s = .ok i := fetch_of_decode (decode_eq_ok_iff.mpr h.symm)
  obtain ⟨-, hin⟩ := fetch_ok hf
  have hlen := i.opcode.ilen_eq_four_or_five
  exact ⟨hf, by omega⟩

theorem step_of_drop_eq_encode {after : List Byte} (hfits : s.ProgFits) (hnone : s.faultCause = .none)
    (h : s.prog.drop s.pc.toNat = encode i ++ after) : step s = exec i s := by
  obtain ⟨hf, hpc⟩ := fetch_of_drop_eq_encode h
  exact step_of_fetch hfits (status_running_iff.mpr ⟨hnone, hpc⟩) hf

end decoded

/-- Settles O18: the encoding is what is left of the program after the bytes before `pc`. -/
theorem stepRunsEncodedInstruction : Obligations.StepRunsEncodedInstruction := by
  unfold Obligations.StepRunsEncodedInstruction
  intro s i before after hfits hnone hprog hpc
  refine step_of_drop_eq_encode (after := after) hfits hnone ?_
  rw [hprog, hpc, List.append_assoc, List.drop_left]

/-- What is placed at an offset stands at that offset. -/
theorem drop_overwriteAt (prog : List Byte) (o : Nat) (bytes : List Byte) :
    (overwriteAt prog o bytes).drop o = bytes ++ prog.drop (o + bytes.length) := by
  have hlen : (prog.take o ++ List.replicate (o - prog.length) 0).length = o := by
    rw [List.length_append, List.length_take, List.length_replicate]
    omega
  rw [overwriteAt, List.append_assoc _ bytes, List.drop_left' hlen]

/-- Settles O19: the encoding of the word's instruction is what stands at `pc`. -/
theorem placedWordIsRunNext : Obligations.PlacedWordIsRunNext := by
  unfold Obligations.PlacedWordIsRunNext
  intro s nbits w i hword hfits
  have hplaced : s.withFetchWord nbits w = s.placeAtPc (encode i) := by
    rw [State.withFetchWord, tableInstrBytes_eq_encode hword]
  rw [hplaced] at hfits ⊢
  exact ⟨step_of_drop_eq_encode hfits rfl (drop_overwriteAt s.prog s.pc.toNat _), rfl, rfl, rfl⟩

/-- The state with another program. -/
def State.withProg (s : State) (other : List Byte) : State := { s with prog := other }

/-- An instruction's meaning does not see the program. -/
theorem exec_withProg {i : Instr} {s t : State} (other : List Byte) (h : exec i s = .next t) :
    exec i (s.withProg other) = .next (t.withProg other) := by
  have hchecks : checkedIndices i (s.withProg other) = checkedIndices i s := by cases i <;> rfl
  cases hfirst : firstOutside s.memSize (checkedIndices i s) with
  | some x =>
    obtain rfl := Host.Outcome.next.inj ((exec_of_outside hfirst).symm.trans h)
    exact exec_of_outside (s := s.withProg other) (hchecks ▸ hfirst)
  | none =>
    obtain rfl := Host.Outcome.next.inj ((exec_of_inside hfirst).symm.trans h)
    rw [exec_of_inside (s := s.withProg other) (hchecks ▸ hfirst)]
    cases i <;> rfl

/-- Another program that no fetch of this step can tell from the state's own: of the same length, with the same bytes
at the offsets fetched (R26). -/
def State.FetchesAlike (s : State) (other : List Byte) : Prop :=
  other.length = s.prog.length ∧ ∀ k < fetchWidth s, other[s.pc.toNat + k]? = s.prog[s.pc.toNat + k]?

section alike
variable {s : State} {other : List Byte}

theorem fetchWidth_pos (s : State) : 0 < fetchWidth s := by
  unfold fetchWidth
  split
  · exact Nat.one_pos
  · next op _ =>
    have hlen := op.ilen_eq_four_or_five
    split <;> omega

theorem fetchWidth_of_fetch {i : Instr} (hf : fetch s = .ok i) : fetchWidth s = i.opcode.ilen := by
  obtain ⟨hop, hin⟩ := fetch_ok hf
  simp [fetchWidth, hop, hin]

theorem firstByte_withProg (h : s.FetchesAlike other) : (s.withProg other).firstByte = s.firstByte :=
  congrArg (Option.getD · 0) (h.2 0 (fetchWidth_pos s))

theorem withProg_running (h : s.FetchesAlike other) (hrun : s.status = .running) :
    (s.withProg other).status = .running := by
  rw [status_running_iff] at hrun ⊢
  exact hrun.imp_right h.1.symm.subst

/-- The bytes of the fetched instruction are among those fetched. -/
theorem fetch_withProg {i : Instr} (h : s.FetchesAlike other) (hf : fetch s = .ok i) :
    fetch (s.withProg other) = .ok i := by
  have htake : (other.drop s.pc.toNat).take i.opcode.ilen = encode i := by
    rw [← take_drop_pc_of_fetch hf, ← fetchWidth_of_fetch hf]
    refine List.ext_getElem? fun k => ?_
    by_cases hk : k < fetchWidth s
    · simp only [List.getElem?_take_of_lt hk, List.getElem?_drop, h.2 k hk]
    · simp only [List.getElem?_take_eq_none (Nat.not_lt.mp hk)]
  refine (fetch_of_drop_eq_encode (after := (other.drop s.pc.toNat).drop i.opcode.ilen) ?_).1
  rw [← htake, List.take_append_drop]
  rfl

end alike

/-- Settles O25: the first byte, and the whole instruction where one is fetched, decide the step. -/
theorem stepReadsOnlyFetchedBytes : Obligations.StepReadsOnlyFetchedBytes := by
  unfold Obligations.StepReadsOnlyFetchedBytes
  intro s t other hlen hbytes h
  have halike : s.FetchesAlike other := ⟨hlen, hbytes⟩
  have hfirst := firstByte_withProg halike
  obtain ⟨hfits, hrun⟩ := running_of_step_next h
  have hfits' : (s.withProg other).ProgFits := hlen.le.trans hfits
  have hrun' := withProg_running halike hrun
  obtain ⟨hop, hstep⟩ | ⟨op, hop, hshort, hstep⟩ | ⟨i, hf, hstep⟩ := running_step_cases hfits hrun
  · obtain rfl := Host.Outcome.next.inj (hstep.symm.trans h)
    rw [← hfirst] at hop ⊢
    exact step_of_unknown hfits' hrun' hop
  · obtain rfl := Host.Outcome.next.inj (hstep.symm.trans h)
    rw [← hfirst] at hop ⊢
    exact step_of_truncated hfits' hrun' hop (hlen.trans_lt hshort)
  · exact (step_of_fetch hfits' hrun' (fetch_withProg halike hf)).trans (exec_withProg other (hstep.symm.trans h))

/-- Settles O26: the first byte at `pc` decides how far a completed step advances. -/
theorem controlIgnoresData : Obligations.ControlIgnoresData := by
  unfold Obligations.ControlIgnoresData
  intro s s' t t' hprog hpc h h' hok hok'
  obtain ⟨⟨op, hop, hadv⟩, -, -⟩ := (pcAdvancesByLength s t h).2 hok
  obtain ⟨⟨op', hop', hadv'⟩, -, -⟩ := (pcAdvancesByLength s' t' h').2 hok'
  have hfirst : s'.firstByte = s.firstByte := by rw [State.firstByte, hprog, hpc, State.firstByte]
  obtain rfl : op' = op := Option.some.inj (hop'.symm.trans (hfirst ▸ hop))
  exact BitVec.eq_of_toNat_eq (by rw [hadv', hadv, hpc])

end Machine

end Sys2Proof
end

