-- ==== Sys2Proof/Proofs/AssembledPrograms.lean ====
section
/-! A program that the assembler emits is whole instructions from `pc` on at every step of its run, so no step of it
raises a fetch fault. -/

namespace Sys2Proof.Machine

/-- In a RUNNING core whose bytes from `pc` on are encodings, the first of them is fetched and run. -/
theorem step_of_assembled {s t : State} {is : List Instr} (hbytes : s.prog.drop s.pc.toNat = Asm.program is)
    (h : step s = .next t) :
    ∃ i rest, is = i :: rest ∧ fetch s = .ok i ∧ exec i s = .next t := by
  obtain ⟨hnone, hpc, -⟩ := step_control h
  cases is with
  | nil => exact absurd (List.drop_eq_nil_iff.mp hbytes) (Nat.not_le.mpr hpc)
  | cons i rest =>
    have hfirst : s.prog.drop s.pc.toNat = encode i ++ Asm.program rest := hbytes
    have hstep := step_of_drop_eq_encode (running_of_step_next h).1 hnone hfirst
    exact ⟨i, rest, rfl, (fetch_of_drop_eq_encode hfirst).1, hstep.symm.trans h⟩

/-- The bytes after the first encoding are the encodings of the other instructions. -/
theorem drop_ilen_program (i : Instr) (rest : List Instr) :
    (Asm.program (i :: rest)).drop i.opcode.ilen = Asm.program rest := by
  rw [Asm.program, List.flatMap_cons, ← encode_length, List.drop_left]
  rfl

/-- Settles O50: the step runs the first of the encoded instructions. A fault leaves `pc` before it and is no fetch
fault; its completion moves `pc` to the next. -/
theorem stepKeepsAssembledProgram : Obligations.StepKeepsAssembledProgram := by
  unfold Obligations.StepKeepsAssembledProgram
  rintro s t ⟨⟨is, hbytes⟩, -⟩ h
  obtain ⟨i, rest, rfl, hf, hexec⟩ := step_of_assembled hbytes h
  obtain ⟨index, hraise⟩ | ⟨dst, v, hcomplete⟩ := exec_cases i s
  · obtain rfl := Host.Outcome.next.inj (hraise.symm.trans hexec)
    exact ⟨⟨i :: rest, hbytes⟩, .inr rfl⟩
  · obtain rfl := Host.Outcome.next.inj (hcomplete.symm.trans hexec)
    refine ⟨⟨rest, ?_⟩, .inl (step_control h).1⟩
    rw [State.complete_prog, complete_pc_toNat (running_of_step_next h).1 hf, ← List.drop_drop, hbytes,
      drop_ilen_program]

/-- R65: what is assembled is the program of a list of instructions. -/
theorem program_of_assemble {lines : List (List Char)} {out : Asm.Output} (h : Asm.assemble lines = .ok out) :
    ∃ is, out.prog = Asm.program is := by
  unfold Asm.assemble at h
  split at h
  case h_1 => cases h
  case h_2 is _ =>
    obtain rfl := Except.ok.inj h
    exact ⟨is, rfl⟩

/-- Settles O51: a run starts at offset 0 with no fault. -/
theorem assemblerOutputIsAssembled : Obligations.AssemblerOutputIsAssembled := by
  unfold Obligations.AssemblerOutputIsAssembled
  intro lines out memSize h
  obtain ⟨is, hprog⟩ := program_of_assemble h
  exact ⟨⟨is, hprog⟩, .inl rfl⟩

/-- Settles O13: by induction over the run. -/
theorem assembledProgramsFetchCleanly : Obligations.AssembledProgramsFetchCleanly := by
  unfold Obligations.AssembledProgramsFetchCleanly
  intro lines out memSize k t h hrun
  have hassembled : t.Assembled :=
    run_induction (P := fun _ u => u.Assembled) (fun _ => stepKeepsAssembledProgram)
      (assemblerOutputIsAssembled lines out memSize h) hrun
  exact hassembled.2

end Sys2Proof.Machine
end

