-- ==== Sys2Proof/Proofs/Aliasing.lean ====
section
/-! Operands that alias: every read of a completed instruction is of the memory before its one write (R82, R83, R88). -/

namespace Sys2Proof.Machine

/-- The memory after a completed instruction: its word, computed from the memory before, in its destination. -/
theorem read_of_exec_completed {i : Instr} {s t : State} (h : exec i s = .next t) (hok : t.faultCause = .none)
    (a : Nat) : t.mem.read a = if a = destination i s then writtenWord i s else s.mem.read a := by
  cases hfirst : firstOutside s.memSize (checkedIndices i s) with
  | some x =>
    obtain rfl := Host.Outcome.next.inj ((exec_of_outside hfirst).symm.trans h)
    cases hok
  | none =>
    obtain rfl := Host.Outcome.next.inj ((exec_of_inside hfirst).symm.trans h)
    exact Memory.read_write _ _ _ _

section completed
variable {i : Instr} {s t : State}

theorem read_destination_of_exec {a : Nat} (h : exec i s = .next t) (hok : t.faultCause = .none)
    (ha : a = destination i s) : t.mem.read a = writtenWord i s :=
  (read_of_exec_completed h hok a).trans (if_pos ha)

/-- An instruction that writes back the word its destination holds changes no cell. -/
theorem read_eq_of_exec_rewrites (h : exec i s = .next t) (hok : t.faultCause = .none)
    (hword : writtenWord i s = s.mem.read (destination i s)) (a : Nat) : t.mem.read a = s.mem.read a := by
  rw [read_of_exec_completed h hok, hword]
  split
  case isTrue ha => rw [ha]
  case isFalse => rfl

end completed

/-- Settles O35: each case is the written word at the destination, with the aliased cells named alike. -/
theorem aliasedOperandsReadOldContent : Obligations.AliasedOperandsReadOldContent := by
  unfold Obligations.AliasedOperandsReadOldContent
  rintro b c s t p q rfl rfl hok
  refine ⟨fun h halias => ?loadCB, fun h halias => ?loadPC, fun h halias => ?loadPB, fun h halias => ?storePB,
    fun h halias => ?storePC, fun h halias => ?storeCB, fun h halias => ?reversePQ, fun h halias => ?reverseQB,
    fun h halias => ?reverseQC⟩
  case loadCB => exact read_destination_of_exec h hok halias.symm
  case loadPC => exact read_eq_of_exec_rewrites h hok (congrArg s.mem.read halias)
  case loadPB =>
    rw [read_destination_of_exec (a := c.toNat) h hok rfl]
    exact (congrArg (fun a => (s.mem.read a).toNat) halias).trans halias
  case storePB => exact read_destination_of_exec h hok halias.symm
  case storePC => exact read_eq_of_exec_rewrites h hok (congrArg s.mem.read halias.symm)
  case storeCB => exact (read_destination_of_exec h hok rfl).trans (congrArg s.mem.read halias)
  case reversePQ => exact read_destination_of_exec h hok (congrArg BitVec.toNat halias)
  case reverseQB => exact read_destination_of_exec h hok halias.symm
  case reverseQC => exact read_destination_of_exec h hok halias.symm

/-- `BITREVERSE` in place, with both pointer cells holding `p`: it completes, and reverses cell `p` alone. -/
theorem exec_bitreverse_in_place {b : BitVec 10} {c : BitVec 16} {s : State} {p : Word}
    (hbp : s.mem.read b.toNat = p) (hcp : s.mem.read c.toNat = p)
    (hb : b.toNat < s.memSize) (hc : c.toNat < s.memSize) (hp : p.toNat < s.memSize) :
    ∃ t, exec (.bitreverse b c) s = .next t ∧ t.memSize = s.memSize ∧
      ∀ a, t.mem.read a = if a = p.toNat then bitrev32 (s.mem.read p.toNat) else s.mem.read a := by
  have hlist : checkedIndices (.bitreverse b c) s = [b.setWidth 32, p, c.setWidth 32, p] := by
    rw [checkedIndices, hbp, hcp]
  have hchecked : ∀ x ∈ checkedIndices (.bitreverse b c) s, x.toNat < s.memSize :=
    hlist ▸ List.forall_mem_append.mpr ⟨checked_b_pointer_c hb hp hc, List.forall_mem_singleton.mpr hp⟩
  obtain ⟨t, hexec, -, ⟨-, hsize, -⟩, hread⟩ := exec_completes_of_checked hchecked
  refine ⟨t, hexec, hsize, fun a => ?_⟩
  rw [hread, destination, writtenWord, hcp, hbp]

/-- Settles O34: the pointer cells survive the first write, so the second reverses the same cell back. -/
theorem bitreverseTwiceRestores : Obligations.BitreverseTwiceRestores := by
  unfold Obligations.BitreverseTwiceRestores
  intro b c s p hbp hcp hb hc hp hpb hpc
  obtain ⟨t, hexec, hsize, hread⟩ := exec_bitreverse_in_place hbp hcp hb hc hp
  have hbp' : t.mem.read b.toNat = p := by rw [hread, if_neg hpb.symm, hbp]
  have hcp' : t.mem.read c.toNat = p := by rw [hread, if_neg hpc.symm, hcp]
  rw [← hsize] at hb hc hp
  obtain ⟨u, hexec', -, hread'⟩ := exec_bitreverse_in_place hbp' hcp' hb hc hp
  refine ⟨t, u, hexec, hexec', fun a => ?_⟩
  rw [hread', hread, hread, if_pos rfl, bitrev32_involutive]
  split
  case isTrue ha => rw [ha]
  case isFalse => rfl

end Sys2Proof.Machine
end

