-- ==== Sys2Proof/Proofs/Readout.lean ====
section
/-! The read-out and the dump (R28, R123). -/

namespace Sys2Proof.Machine

/-- R22: the statuses other than RUNNING. -/
theorem status_ne_running_iff_fault_or_end {s : State} :
    s.status ≠ .running ↔ s.faultCause ≠ .none ∨ s.prog.length ≤ s.pc.toNat := by
  rw [Ne, status_running_iff, not_and_or, Nat.not_lt]

/-- Settles O48: the dump of a range inside memory is its indices in order, each with the word of its cell. -/
theorem readoutAndDump : Obligations.ReadoutAndDump := by
  unfold Obligations.ReadoutAndDump
  refine ⟨fun s i => ?readout, fun s start stop hhalted hle hlt => ⟨_, if_pos ⟨hhalted, hle, hlt⟩, ?length, ?cells⟩,
    fun s start stop hrange => ?none⟩
  case readout => simp only [State.readout, status_ne_running_iff_fault_or_end]
  case length => rw [List.length_map, List.length_range']
  case cells =>
    intro k hk
    rw [List.length_map, List.length_range'] at hk
    rw [List.getElem?_map, List.getElem?_range' hk, Nat.one_mul]
    rfl
  case none => exact if_neg fun ⟨_, hle, hlt⟩ => hrange.elim (Nat.not_lt.mpr hle) (Nat.not_le.mpr hlt)

end Sys2Proof.Machine
end

