-- ==== Sys2Proof/Proofs/AssemblerErrors.lean ====
section
/-! The assembler's errors (section 8 of the encoding's rules): how a line splits into its first word and its operands
whatever the text after the word, and which line is which error. -/

namespace Sys2Proof.Asm

/-- Text without the white space after it. -/
def trimRight (cs : List Char) : List Char := cs.rdropWhile Char.isWhitespace

theorem trim_eq_trimRight (cs : List Char) : trim cs = trimRight (trimLeft cs) := rfl

/-- White space is trimmed from the second of two texts, and from the first where nothing is left of the second. -/
theorem trimRight_append (cs ds : List Char) :
    trimRight (cs ++ ds) = if trimRight ds = [] then trimRight cs else cs ++ trimRight ds := by
  simp only [trimRight, List.rdropWhile, List.reverse_append, List.dropWhile_append, List.reverse_eq_nil_iff,
    List.isEmpty_iff]
  split
  · rfl
  · rw [List.reverse_append, List.reverse_reverse]

/-- Text that does not end with white space is kept before any other. -/
theorem trimRight_append_of_eq_self {cs : List Char} (h : trimRight cs = cs) (ds : List Char) :
    trimRight (cs ++ ds) = cs ++ trimRight ds := by
  rw [trimRight_append]
  split
  case isTrue hnil => rw [h, hnil, List.append_nil]
  case isFalse => rfl

theorem trimRight_concat {c : Char} (h : c.isWhitespace = false) (cs : List Char) :
    trimRight (cs ++ [c]) = cs ++ [c] :=
  List.rdropWhile_concat_neg _ cs c (by simp [h])

theorem trimRight_of_no_whitespace {cs : List Char} (h : ∀ c ∈ cs, c.isWhitespace = false) : trimRight cs = cs :=
  List.rdropWhile_eq_self_iff.mpr fun hne => by simp [h _ (List.getLast_mem hne)]

/-- The two ends of a text are trimmed independently. -/
theorem trimLeft_trimRight (cs : List Char) : trimLeft (trimRight cs) = trimRight (trimLeft cs) := by
  induction cs with
  | nil => rfl
  | cons c cs ih =>
    by_cases hc : c.isWhitespace = true
    · have hskip (ds : List Char) : trimLeft (c :: ds) = trimLeft ds := List.dropWhile_cons_of_pos hc
      rw [hskip, ← ih, ← List.singleton_append, trimRight_append]
      split
      case isTrue hnil =>
        rw [hnil, trimRight, List.rdropWhile_singleton, if_pos hc]
      case isFalse => exact hskip _
    · have hkeep (ds : List Char) : trimLeft (c :: ds) = c :: ds := List.dropWhile_cons_of_neg hc
      have hself : trimRight [c] = [c] := trimRight_concat (Bool.not_eq_true _ ▸ hc) []
      rw [hkeep, ← List.singleton_append, trimRight_append_of_eq_self hself]
      exact hkeep _

@[simp] theorem trim_trimRight (cs : List Char) : trim (trimRight cs) = trim cs := by
  rw [trim_eq_trimRight, trimLeft_trimRight]
  exact List.rdropWhile_idempotent _ _

/-- Trimming takes no other character than white space. -/
theorem count_trimRight {c : Char} (h : c.isWhitespace = false) (cs : List Char) :
    (trimRight cs).count c = cs.count c := by
  have htrimmed : (cs.rtakeWhile Char.isWhitespace).count c = 0 :=
    List.count_eq_zero.mpr fun hmem => Bool.false_ne_true (h.symm.trans (List.mem_rtakeWhile_imp hmem))
  calc (trimRight cs).count c
    _ = (trimRight cs ++ cs.rtakeWhile Char.isWhitespace).count c := by rw [List.count_append, htrimmed, Nat.add_zero]
    _ = cs.count c := by rw [trimRight, List.rdropWhile_append_rtakeWhile]

/-- A text has one piece more than separators. -/
theorem length_splitOn (sep : Char) (cs : List Char) : (splitOn sep cs).length = cs.count sep + 1 := by
  induction cs with
  | nil => rfl
  | cons c cs ih =>
    rw [splitOn]
    split
    case isTrue hsep => rw [List.length_cons, ih, hsep, List.count_cons_self]
    case isFalse hsep =>
      rw [List.count_cons_of_ne hsep, ← ih]
      split
      case h_1 hnil => rw [hnil] at ih; simp at ih
      case h_2 piece pieces hpieces => rw [hpieces]; rfl

/-- Texts without the separator, joined by it, hold one separator fewer than there are texts. -/
theorem count_intercalate {sep : Char} {texts : List (List Char)} (h : ∀ x ∈ texts, sep ∉ x) :
    ([sep].intercalate texts).count sep = texts.length - 1 := by
  induction texts with
  | nil => rfl
  | cons x texts ih =>
    obtain ⟨hx, htexts⟩ := List.forall_mem_cons.mp h
    have hx : x.count sep = 0 := List.count_eq_zero.mpr hx
    cases texts with
    | nil => rw [List.intercalate_singleton, hx]; rfl
    | cons y texts =>
      rw [List.intercalate_cons_cons, List.count_append, List.count_append, hx, ih htexts, List.count_singleton_self]
      simp only [List.length_cons]
      omega

/-- The operand part of an instruction line, from its comma-separated pieces (R63, R64). -/
def parseOperands (op : Opcode) (pieces : List (List Char)) : Except ErrorKind Instr :=
  match pieces with
  | [x, y] =>
    match operand? (trim x), operand? (trim y) with
    | some b, some c =>
      match (Source.mk op b c).toInstr? with
      | some i => .ok i
      | none => .error .fieldOverflow
    | _, _ => .error .wrongOperandArity
  | _ => .error .wrongOperandArity

theorem parseOperands_of_length_ne_two (op : Opcode) {pieces : List (List Char)} (h : pieces.length ≠ 2) :
    parseOperands op pieces = .error .wrongOperandArity := by
  unfold parseOperands
  split
  case h_1 => exact absurd rfl h
  case h_2 => rfl

theorem parseOperands_of_no_operand (op : Opcode) {x y : List Char}
    (h : operand? (trim x) = none ∨ operand? (trim y) = none) :
    parseOperands op [x, y] = .error .wrongOperandArity := by
  simp only [parseOperands]
  split
  case h_1 hb hc => simp [hb, hc] at h
  case h_2 => rfl

theorem parseInstr_of_no_mnemonic {line : List Char}
    (h : mnemonicOf? ((trim line).takeWhile fun c => !c.isWhitespace) = none) :
    parseInstr line = .error .unknownMnemonic := by
  simp only [parseInstr, h]

theorem parseInstr_of_mnemonic {line : List Char} {op : Opcode}
    (h : mnemonicOf? ((trim line).takeWhile fun c => !c.isWhitespace) = some op) :
    parseInstr line = parseOperands op (splitOn ',' ((trim line).dropWhile fun c => !c.isWhitespace)) := by
  simp only [parseInstr, h] <;> rfl

/-- What is left of a space and a text after trimming begins with that space, if anything is left. -/
theorem trimRight_space_cons (rest : List Char) :
    trimRight (' ' :: rest) = [] ∨ trimRight (' ' :: rest) = ' ' :: trimRight rest := by
  rw [← List.singleton_append, trimRight_append]
  split
  · exact .inl rfl
  · exact .inr rfl

section word
variable {word : List Char} (hne : word ≠ []) (hword : ∀ c ∈ word, c.isWhitespace = false) (rest : List Char)
include hword

section line
include hne

theorem trim_word_append : trim (word ++ ' ' :: rest) = word ++ trimRight (' ' :: rest) := by
  have hhead : trimLeft (word ++ ' ' :: rest) = word ++ ' ' :: rest := by
    refine trimLeft_eq_self fun c hc => ?_
    rw [List.head?_append_of_ne_nil _ hne] at hc
    exact hword c (List.mem_of_mem_head? hc)
  rw [trim_eq_trimRight, hhead, trimRight_append_of_eq_self (trimRight_of_no_whitespace hword)]

/-- A line's first word ends at the first white space (log entry 14). -/
theorem takeWhile_trim_word_append :
    (trim (word ++ ' ' :: rest)).takeWhile (fun c => !c.isWhitespace) = word := by
  rw [trim_word_append hne hword, List.takeWhile_append_of_pos fun c hc => by simp [hword c hc]]
  obtain hnil | hspace := trimRight_space_cons rest
  · rw [hnil]
    exact List.append_nil _
  · rw [hspace]
    exact List.append_nil _

/-- A line's operands are all that follows its first word. -/
theorem dropWhile_trim_word_append :
    (trim (word ++ ' ' :: rest)).dropWhile (fun c => !c.isWhitespace) = trimRight (' ' :: rest) := by
  rw [trim_word_append hne hword, List.dropWhile_append_of_pos fun c hc => by simp [hword c hc]]
  obtain hnil | hspace := trimRight_space_cons rest
  · rw [hnil]
    rfl
  · rw [hspace]
    rfl

end line

/-- R60: a line whose first word does not begin with `;` is no comment. -/
theorem isSkipped_word_append (hne : word ≠ []) (hcomment : word.head? ≠ some ';') :
    isSkipped (word ++ ' ' :: rest) = false := by
  cases word with
  | nil => exact absurd rfl hne
  | cons c cs =>
    have hc : c ≠ ';' := fun h => hcomment (congrArg some h)
    have hhead : trimLeft (c :: cs ++ ' ' :: rest) = c :: (cs ++ ' ' :: rest) :=
      List.dropWhile_cons_of_neg (by simp [hword c])
    rw [isSkipped, hhead]
    exact beq_false_of_ne hc

end word

/-- A line of a mnemonic and any text is read as that mnemonic's operands. -/
theorem parseInstr_mnemonic_append (op : Opcode) (rest : List Char) :
    parseInstr (mnemonic op ++ ' ' :: rest) = parseOperands op (splitOn ',' (trimRight (' ' :: rest))) := by
  have hne := mnemonic_ne_nil op
  have hword := mnemonic_not_whitespace op
  rw [parseInstr_of_mnemonic (op := op)
    (by rw [takeWhile_trim_word_append hne hword, mnemonicOf?_mnemonic]), dropWhile_trim_word_append hne hword]

theorem mnemonicOf?_eq_none {word : List Char} (h : ∀ op, word ≠ mnemonic op) : mnemonicOf? word = none :=
  List.find?_eq_none.mpr fun op _ => by simpa using (h op).symm

theorem assemble_of_parseLines_error {lines : List (List Char)} {e : Error} (h : parseLines 1 lines = .error e) :
    assemble lines = .error e := by
  rw [assemble, h]

/-- The first bad line's number is that of the first line and one more for each line before it. -/
theorem parseLines_of_first_bad {before : List (List Char)} {line : List Char} {kind : ErrorKind}
    (hbefore : ∀ l ∈ before, isSkipped l = true ∨ ∃ i, parseInstr l = .ok i) (hline : isSkipped line = false)
    (hbad : parseInstr line = .error kind) (after : List (List Char)) (n : Nat) :
    parseLines n (before ++ line :: after) = .error ⟨n + before.length, kind⟩ := by
  induction before generalizing n with
  | nil => simp [parseLines, hline, hbad]
  | cons l before ih =>
    obtain ⟨hl, hbefore⟩ := List.forall_mem_cons.mp hbefore
    have hrest : parseLines (n + 1) (before ++ line :: after) = .error ⟨n + (l :: before).length, kind⟩ := by
      rw [ih hbefore, List.length_cons, Nat.add_assoc, Nat.add_comm 1]
    rw [List.cons_append, parseLines]
    split
    case isTrue => exact hrest
    case isFalse hskip =>
      obtain ⟨i, hparse⟩ := hl.resolve_left hskip
      simp only [hparse, hrest]

/-- Settles O12: by induction over the lines before the bad one. -/
theorem firstBadLineEndsAssembly : Obligations.FirstBadLineEndsAssembly := by
  unfold Obligations.FirstBadLineEndsAssembly
  intro before line after kind hbefore hline hbad
  rw [Nat.add_comm]
  exact assemble_of_parseLines_error (parseLines_of_first_bad hbefore hline hbad after 1)

/-- Settles O9: the first word of the line is the given one, which no kind's mnemonic is. -/
theorem unknownMnemonicIsRejected : Obligations.UnknownMnemonicIsRejected := by
  unfold Obligations.UnknownMnemonicIsRejected
  refine ⟨by decide, mnemonicOf?_mnemonic, fun word rest hne hword hcomment hunknown => ⟨1, ?_⟩⟩
  have hbad : parseInstr (word ++ ' ' :: rest) = .error .unknownMnemonic :=
    parseInstr_of_no_mnemonic (by rw [takeWhile_trim_word_append hne hword, mnemonicOf?_eq_none hunknown])
  exact firstBadLineEndsAssembly [] _ [] _ (by simp) (isSkipped_word_append hword rest hne hcomment) hbad

/-- The pieces of the text after a mnemonic are as many as the operands joined there, or one where there are none. -/
theorem length_pieces_of_operands {operands : List (List Char)} (h : ∀ x ∈ operands, ',' ∉ x) :
    (splitOn ',' (trimRight (' ' :: [','].intercalate operands))).length = operands.length - 1 + 1 := by
  rw [length_splitOn, count_trimRight (by decide), List.count_cons_of_ne (by decide), count_intercalate h]

/-- The two pieces of a text with one comma. -/
theorem pieces_of_two_operands {x y : List Char} (hx : ',' ∉ x) (hy : ',' ∉ y) :
    splitOn ',' (trimRight (' ' :: (x ++ ',' :: y))) = [' ' :: x, trimRight y] := by
  have hx' : ',' ∉ ' ' :: x := List.not_mem_cons_of_ne_of_not_mem (by decide) hx
  have hy' : ',' ∉ trimRight y := by
    rwa [← List.count_eq_zero, count_trimRight (by decide), List.count_eq_zero]
  have htrim : trimRight (' ' :: (x ++ ',' :: y)) = ' ' :: x ++ ',' :: trimRight y := by
    rw [← List.cons_append, List.append_cons, trimRight_append_of_eq_self (trimRight_concat (by decide) _),
      ← List.append_cons]
  rw [htrim, splitOn_append_cons hx', splitOn_of_not_mem hy']

/-- Settles O10: the count of the pieces is settled before any of them is read, and both are read before the range
check. -/
theorem wrongArityIsRejected : Obligations.WrongArityIsRejected := by
  unfold Obligations.WrongArityIsRejected
  refine ⟨fun op operands hcount hcomma => ?count, fun op => ?alone, fun op x y hx hy hnone => ?noNumeral⟩
  case count =>
    rw [parseInstr_mnemonic_append]
    refine parseOperands_of_length_ne_two op ?_
    rw [length_pieces_of_operands hcomma]
    omega
  case alone => cases op <;> rfl
  case noNumeral =>
    rw [List.append_assoc, List.cons_append, parseInstr_mnemonic_append, pieces_of_two_operands hx hy]
    refine parseOperands_of_no_operand op ?_
    rwa [trim_space_cons, trim_trimRight]

end Sys2Proof.Asm
end

