-- ==== Sys2Proof/Proofs/OperandRange.lean ====
section
/-! The range check at the encode boundary (R64): a source instruction is accepted exactly when it is the source form of
an instruction, whose fields are then its operands. -/

namespace Sys2Proof

/-- A field holds the numeral that fits it. -/
theorem toNat_ofNat_of_fits {width n : Nat} (h : (Operand.numeral n).fits width = true) :
    (BitVec.ofNat width n).toNat = n := by
  rw [BitVec.toNat_ofNat, Nat.mod_eq_of_lt (of_decide_eq_true h)]

/-- What the range check accepts is the source form of the instruction it answers. -/
theorem toSource_of_toInstr? {src : Source} {i : Instr} (h : src.toInstr? = some i) : i.toSource = src := by
  obtain ⟨op, b, c⟩ := src
  unfold Source.toInstr? at h
  split at h
  case h_2 => cases h
  case h_1 nb nc hb hc =>
    obtain rfl : b = .numeral nb := hb
    obtain rfl : c = .numeral nc := hc
    split at h
    case isFalse => cases h
    case isTrue hfits =>
      obtain ⟨hfitsB, hfitsC⟩ := Bool.and_eq_true_iff.mp hfits
      have hfieldB : (BitVec.ofNat 10 nb).toNat = nb := toNat_ofNat_of_fits hfitsB
      have hfieldC : (BitVec.ofNat op.cWidth nc).toNat = nc := toNat_ofNat_of_fits hfitsC
      cases op with
      | loadConst | loadMem | storeMem | bitreverse =>
        obtain rfl := Option.some.inj h
        exact congrArg₂ (fun b c => Source.mk _ (.numeral b) (.numeral c)) hfieldB hfieldC

theorem toInstr?_eq_some_iff {src : Source} {i : Instr} : src.toInstr? = some i ↔ i.toSource = src :=
  ⟨toSource_of_toInstr?, fun h => h ▸ Asm.toInstr?_toSource i⟩

namespace Asm

theorem parseInstr_printSource_eq_ok_iff {src : Source} {i : Instr} :
    parseInstr (printSource src) = .ok i ↔ i.toSource = src := by
  rw [parseInstr_printSource, ← toInstr?_eq_some_iff]
  cases src.toInstr? <;> simp

/-- A printed line that is the source form of no instruction overflows a field. -/
theorem parseInstr_printSource_of_not_source {src : Source} (h : ∀ i : Instr, i.toSource ≠ src) :
    parseInstr (printSource src) = .error .fieldOverflow := by
  rw [parseInstr_printSource, Option.eq_none_iff_forall_ne_some.mpr fun i => mt toInstr?_eq_some_iff.mp (h i)]
  rfl

/-- The source form of an instruction, as operands in range (R51, R64). -/
theorem toSource_eq_iff {op : Opcode} {b c : Operand} {i : Instr} :
    i.toSource = ⟨op, b, c⟩ ↔
      ∃ nb nc, b = .numeral nb ∧ c = .numeral nc ∧ nb ≤ 1023 ∧ nc ≤ (if op = .loadConst then 16777215 else 65535) ∧
        i.opcode = op ∧ i.fieldB.toNat = nb ∧ i.fieldC = nc := by
  constructor
  case mp =>
    intro h
    obtain ⟨rfl, rfl, rfl⟩ := Source.mk.inj h
    obtain ⟨-, hb, hc⟩ := encodingIsShiftedFields i
    exact ⟨_, _, rfl, rfl, hb, hc, rfl, rfl, rfl⟩
  case mpr =>
    rintro ⟨_, _, rfl, rfl, -, -, rfl, rfl, rfl⟩
    rfl

/-- Settles O8: a line in range is the source form of the instruction with its fields, and a line out of range that of
no instruction. -/
theorem operandRangeIsEnforced : Obligations.OperandRangeIsEnforced := by
  unfold Obligations.OperandRangeIsEnforced
  refine ⟨fun op b c i => parseInstr_printSource_eq_ok_iff.trans toSource_eq_iff,
    fun op b c hout => parseInstr_printSource_of_not_source fun i hsource => ?_⟩
  obtain ⟨nb, nc, hb, hc, hnb, hnc, -⟩ := toSource_eq_iff.mp hsource
  exact hout ⟨nb, nc, hb, hc, hnb, hnc⟩

end Asm

end Sys2Proof
end
